-- ==== Sys2Proof/Word.lean ====
section
/-! DEFINITION. The word types of the block and the closed enumerations of its interface. -/

namespace Sys2Proof

/-- A value of the position counter and an address of the excitation ROM: 3 bits (R21, R40). -/
abbrev Pos := BitVec 3

/-- A value of the output latch and a word of the excitation ROM: 4 bits, bit `i` for coil `i` (R22, R42). -/
abbrev Pattern := BitVec 4

/-- A control word `ctl[3:0]` = `{rst, off, step, dir}` (R60). -/
abbrev Ctl := BitVec 4

/-- The closed enumeration of the direction (R61); a third value cannot be written (R151). -/
inductive Direction where
  | clockwise
  | counterClockwise
  deriving DecidableEq, Repr

/-- The logical level of a coil (R11). -/
inductive Level where
  | active
  | inactive
  deriving DecidableEq, Repr

/-- The opposite direction. -/
def Direction.opposite : Direction → Direction
  | .clockwise => .counterClockwise
  | .counterClockwise => .clockwise

end Sys2Proof
end

