-- ==== Sys2Proof/Syntax.lean ====
section
/-! DEFINITION. The operations of the block, one constructor per row of spec/opcode_table.json. -/

namespace Sys2Proof

/-- The five operations (R63). No operation has an immediate or a register operand (R65); the one
operand bit, `dir`, is the difference between the two STEP rows. The ignored bits of a control word
are not part of the operation (R62, R64). -/
inductive Instr where
  /-- RESET, R104. -/
  | reset
  /-- OFF, R100. -/
  | off
  /-- STEP.CW, R83. -/
  | stepCw
  /-- STEP.CCW, R84. -/
  | stepCcw
  /-- HOLD, R102. -/
  | hold
  deriving DecidableEq, Repr

end Sys2Proof
end

