-- ==== Sys2Proof/Decode.lean ====
section
/-! DEFINITION. The control word: its fields, its decoder (total), its encoder, the opcode map, and
the decoder of raw numbers. -/

namespace Sys2Proof

/-- The input `rst` = `ctl[3]` (R32, R60). -/
def ctlRst (w : Ctl) : Bool := w.getLsbD 3

/-- The input `off` = `ctl[2]` (R32, R60). -/
def ctlOff (w : Ctl) : Bool := w.getLsbD 2

/-- The input `step` = `ctl[1]` (R32, R60). -/
def ctlStep (w : Ctl) : Bool := w.getLsbD 1

/-- The input `dir` = `ctl[0]` (R32, R60). -/
def ctlDir (w : Ctl) : Bool := w.getLsbD 0

/-- The control word `{rst, off, step, dir}` of four input bits, `rst` at the most significant end
(R9, R60). -/
def packCtl (rst off step dir : Bool) : Ctl :=
  BitVec.ofBool rst ++ BitVec.ofBool off ++ BitVec.ofBool step ++ BitVec.ofBool dir

/-- `dir` = 0 is Clockwise and `dir` = 1 is CounterClockwise (R61). -/
def directionOfBit (dir : Bool) : Direction :=
  if dir then .counterClockwise else .clockwise

/-- The operation `STEP d` of the assembler notation (R68). -/
def stepOp : Direction → Instr
  | .clockwise => .stepCw
  | .counterClockwise => .stepCcw

/-- `Decode` of R62: a total function of the control word, by priority from bit 3 down. -/
def decode (w : Ctl) : Instr :=
  if ctlRst w then .reset
  else if ctlOff w then .off
  else if ctlStep w then stepOp (directionOfBit (ctlDir w))
  else .hold

/-- Why a raw number is no control word. -/
inductive DecodeReject where
  /-- It has a bit above bit 3: there is one format, 4 bits wide (R60, R67). Safe. -/
  | widerThanControlWord (w : Nat)
  deriving DecidableEq, Repr

/-- The operation of a control word given as a number, or the reason it is none (log entry 4). -/
def decodeNumber (w : Nat) : Except DecodeReject Instr :=
  if w < 16 then .ok (decode (BitVec.ofNat 4 w)) else .error (.widerThanControlWord w)

/-- The operation the decoder reads from the number `w`, of which `nbits` bits are given and every
bit above is 0. The table's numbering is the control word's own (bit 0 least significant, R9). -/
def decodeTableWord (nbits w : Nat) : Option Instr :=
  match decodeNumber (w % 2 ^ nbits) with
  | .ok i => some i
  | .error _ => none

/-- The canonical control word of an operation: every ignored bit 0 (R64). -/
def encode : Instr → Ctl
  | .reset => 0b1000
  | .off => 0b0100
  | .stepCw => 0b0010
  | .stepCcw => 0b0011
  | .hold => 0b0000

/-- Whether a control word is the canonical one of its operation (R64). -/
def isCanonical (w : Ctl) : Bool := encode (decode w) == w

/-- A row of the opcode map (R63). -/
structure OpcodeRow where
  op : Instr
  mask : Ctl
  pattern : Ctl
  deriving DecidableEq, Repr

/-- A control word `w` selects the row when `(w AND mask) = match` (R63). -/
def OpcodeRow.selects (r : OpcodeRow) (w : Ctl) : Bool := w &&& r.mask == r.pattern

/-- The opcode map of R63. -/
def opcodeMap : List OpcodeRow :=
  [⟨.reset, 0b1000, 0b1000⟩, ⟨.off, 0b1100, 0b0100⟩, ⟨.stepCw, 0b1111, 0b0010⟩,
   ⟨.stepCcw, 0b1111, 0b0011⟩, ⟨.hold, 0b1110, 0b0000⟩]

end Sys2Proof
end

