-- ==== Sys2Proof/Config.lean ====
section
/-! DEFINITION. The parameters of the hardware and of its host (R8), and the model's one free value. -/

namespace Sys2Proof

/-- The control word that host `h` presents at clock edge `n` when the state lists none: FREE. "A free
input stream of the step function" (R13), "a total 4-bit value at every step" (R34), one stream for
each host, since several blocks have independent hosts (R160, D21). It has no body, so nothing can be
proved of any of its values, nor of how two streams compare. DESIGN CHOICE, log entries 1 and 12 (safe). -/
opaque Config.hostCtl (h n : Nat) : Ctl

/-- `N_STATES`, the number of positions (R8). -/
def Config.nStates : Nat := 8

/-- Half-steps of one rotor revolution, the "64 internal half-steps" of R8 and R184. -/
def Config.internalHalfSteps : Nat := 64

/-- The gear reduction of R8 and R184. -/
def Config.gearReduction : Nat := 64

/-- `STEPS_PER_REV` = 4096, a host constant (R8). -/
def Config.stepsPerRev : Nat := Config.internalHalfSteps * Config.gearReduction

/-- The default of `N_STEPS`, `STEPS_PER_REV / 4` = 1024 (R8, R121). -/
def Config.defaultSteps : Nat := Config.stepsPerRev / 4

/-- The applied delay of the default `SPEED`, in milliseconds: `delay(1)` (R123). The stored default
and its unit are not in the spec (log entry 6). -/
def Config.defaultDelayMs : Nat := 1

/-- The host's OPEN timing arguments (R8): `SPEED` and `T_CLK`, both as whole numbers of a tick of
the host's choosing, `ticksPerMs` ticks to the millisecond. DESIGN CHOICE, log entry 6 (safe: the
unit is an argument). -/
structure Timing where
  /-- Ticks in one millisecond. -/
  ticksPerMs : Nat
  /-- `SPEED`, the stored duration between half-steps, in ticks (R123). -/
  speed : Nat
  /-- `T_CLK`, the clock period, in ticks. -/
  tClk : Nat
  deriving DecidableEq, Repr

/-- The four wire colours of R46. -/
inductive WireColour where
  | blue
  | pink
  | yellow
  | orange
  deriving DecidableEq, Repr

/-- The OPEN platform parameters (R8): `COIL_BINDING`, which physical pin and which wire colour is
bit `i` of `Q` (R46), and `ACTIVE_LEVEL`, the voltage that means Active (R11; `true` for the high
one). DESIGN CHOICE of form, log entry 8 (safe: they are arguments and no operation reads them). -/
structure Platform where
  /-- The identifier of the physical pin of bit `i`. -/
  pins : Vector Nat 4
  /-- The wire colour of bit `i`. -/
  wires : Vector WireColour 4
  /-- Whether the electrical level that means Active is the high one. -/
  activeHigh : Bool
  deriving DecidableEq, Repr

/-- The host's arguments of one ROTATE (R120, R121): the direction, the explicit count `N_STEPS`, and
the gap, in HOLD edges, after each STEP. -/
structure RotateCall where
  dir : Direction
  nSteps : Nat
  gaps : List Nat
  deriving DecidableEq, Repr

end Sys2Proof
end

