-- ==== Sys2Proof/Machine/State.lean ====
section
/-! DEFINITION. The state of the machine, the reasons it can stop (none), and the state after RESET. -/

namespace Sys2Proof.Machine

/-- The state: the block's two registers, "7 bits in all" (R20), and the host's input stream as plain
data. The operations read and write `pos` and `q` only. -/
structure State where
  /-- `POS`, the position counter (R21). -/
  pos : Pos
  /-- `Q`, the output latch; bit `i` is the level of coil `i` (R22). -/
  q : Pattern
  /-- The MODEL's own: the control words the host presents at the coming edges, the next first
  (DESIGN CHOICE, log entry 1). When it is empty the next word is the free
  `Config.hostCtl stream edge`. -/
  ctlIn : List Ctl
  /-- The MODEL's own: which host's free stream drives the block (DESIGN CHOICE, log entry 12). No
  identifier of the block (R160): no operation reads or writes it. -/
  stream : Nat
  /-- The MODEL's own: the index of the coming clock edge, by which the free control word is drawn
  (DESIGN CHOICE, log entry 2). -/
  edge : Nat
  deriving DecidableEq, Repr

/-- Empty on purpose: "no operation, in any state and with any control word, faults, traps, aborts,
stalls or refuses" (R150). -/
inductive Fault where
  deriving DecidableEq, Repr

/-- The one refusal is the interface's; nothing raises it (R150). -/
inductive Refusal where
  /-- An operation without a meaning. Raised by no arm of `exec`; safe. -/
  | notModelled (mnemonic : String)
  deriving DecidableEq, Repr

/-- The machine right after RESET: `POS` = 0 and `Q` = 0b0000 (R35). No control word is listed
(log entry 1), the edges are counted from 0 (log entry 2), and the free stream is number 0 (log
entry 12). -/
def State.reset : State where
  pos := 0
  q := 0b0000
  ctlIn := []
  stream := 0
  edge := 0

end Sys2Proof.Machine
end

