-- ==== Sys2Proof/Machine/Operands.lean ====
section
/-! DEFINITION. The only operand computation of the block: the direction multiplexer over the
incremented and the decremented position. -/

namespace Sys2Proof.Machine

/-- `NextPos(d, p)` of R81: Clockwise increments and wraps 7 to 0, CounterClockwise decrements and
wraps 0 to 7. -/
def nextPos (d : Direction) (p : Pos) : Pos :=
  match d with
  | .clockwise => if p = 7 then 0 else p + 1
  | .counterClockwise => if p = 0 then 7 else p - 1

/-- The position reached from `p` by `n` half-steps in direction `d` (R82). -/
def posAfter (d : Direction) : Nat → Pos → Pos
  | 0, p => p
  | n + 1, p => posAfter d n (nextPos d p)

end Sys2Proof.Machine
end

