-- ==== Sys2Proof/Machine/Ops.lean ====
section
/-! DEFINITION. The named operations over the ROM, the two registers and the control-word port. The
block has no exception to take or to return from (R150, R155, R156), so no such operation is here. -/

namespace Sys2Proof.Machine

/-- The excitation ROM, by address (R42). -/
def rom : Vector Pattern 8 :=
  #v[0x8, 0xC, 0x4, 0x6, 0x2, 0x3, 0x1, 0x9]

/-- `MemRead(k, 1)`: the word of the ROM at the 3-bit address `k`, a pure function (R51). -/
def memRead (k : Pos) : Pattern := rom[k.toNat]'(k.isLt)

/-- `POS <- v`. -/
def State.writePos (s : State) (v : Pos) : State := { s with pos := v }

/-- `Q <- v`, all four bits at one edge (R31). -/
def State.writeQ (s : State) (v : Pattern) : State := { s with q := v }

/-- `ApplyPattern(k)`: `Q <- MemRead(k, 1)`, with no other effect (R80). -/
def applyPattern (k : Pos) (s : State) : State := s.writeQ (memRead k)

/-- One half-step: `Q <- ROM[POS]` and `POS <- NextPos(d, POS)`, both from the `POS` before the edge
(R83, R84). -/
def halfStep (d : Direction) (s : State) : State :=
  (applyPattern s.pos s).writePos (nextPos d s.pos)

/-- `Q <- 0b0000`: all four coils Inactive (R100). -/
def deEnergize (s : State) : State := s.writeQ 0b0000

/-- The control word sampled at the coming edge: the next one the host has listed, else the free one
(R12, R13; log entry 1). -/
def State.ctl (s : State) : Ctl :=
  match s.ctlIn with
  | [] => Config.hostCtl s.stream s.edge
  | w :: _ => w

/-- The host's side of one edge: the sampled word is used up and the edge is passed. -/
def State.passEdge (s : State) : State :=
  { s with ctlIn := s.ctlIn.tail, edge := s.edge + 1 }

/-- The host presents the words `ws` at the next edges, before those already listed. -/
def State.present (s : State) (ws : List Ctl) : State :=
  { s with ctlIn := ws ++ s.ctlIn }

/-- The block driven by host `h` (R160; log entry 12). -/
def State.drivenBy (s : State) (h : Nat) : State := { s with stream := h }

/-- A state before the first RESET: `POS` and `Q` hold any values of their widths (R36; log entry 5). -/
def State.powerUp (p : Pos) (v : Pattern) : State :=
  (State.reset.writePos p).writeQ v

/-- The two registers agree: the states are the same of the block's 128 (R20). -/
abbrev State.sameBlock (s t : State) : Prop := s.pos = t.pos ∧ s.q = t.q

end Sys2Proof.Machine
end

