-- ==== Sys2Proof/Machine/HalfStep.lean ====
section
/-! DEFINITION. The half-step operations STEP.CW and STEP.CCW (40_step.md). -/

namespace Sys2Proof.Machine

/-- STEP.CW (R83). -/
def execStepCw (s : State) : Host.Outcome State Fault Refusal :=
  .next (halfStep .clockwise s)

/-- STEP.CCW (R84). -/
def execStepCcw (s : State) : Host.Outcome State Fault Refusal :=
  .next (halfStep .counterClockwise s)

end Sys2Proof.Machine
end

