-- ==== Sys2Proof/Machine/Idle.lean ====
section
/-! DEFINITION. The operations OFF, HOLD and RESET (41_idle_ops.md). -/

namespace Sys2Proof.Machine

/-- OFF (R100): the latch is cleared, the position is kept. -/
def execOff (s : State) : Host.Outcome State Fault Refusal :=
  .next (deEnergize s)

/-- HOLD (R102): nothing changes. -/
def execHold (s : State) : Host.Outcome State Fault Refusal :=
  .next s

/-- RESET (R104): `POS <- 0` and `Q <- 0b0000`. -/
def execReset (s : State) : Host.Outcome State Fault Refusal :=
  .next ((deEnergize s).writePos 0)

end Sys2Proof.Machine
end

