-- ==== Sys2Proof/Machine/Dispatch.lean ====
section
/-! DEFINITION. One arm per operation. -/

namespace Sys2Proof.Machine

/-- What the block does for an operation (R12). -/
def exec (i : Instr) (s : State) : Host.Outcome State Fault Refusal :=
  match i with
  | .reset => Sys2Proof.Machine.execReset s
  | .off => Sys2Proof.Machine.execOff s
  | .stepCw => Sys2Proof.Machine.execStepCw s
  | .stepCcw => Sys2Proof.Machine.execStepCcw s
  | .hold => Sys2Proof.Machine.execHold s

end Sys2Proof.Machine
end

