-- ==== Sys2Proof/Machine/Step.lean ====
section
/-! DEFINITION. One step = one rising clock edge = one operation (R12, R181). -/

namespace Sys2Proof.Machine

/-- The operation selected by the control word sampled at the edge (R12, R62), on the state whose
host has passed the edge. -/
def step (s : State) : Host.Outcome State Fault Refusal :=
  exec (decode s.ctl) s.passEdge

/-- `s` with the control word of number `w` (its `nbits` low bits) presented at the next edge. The
block fetches nothing (R24): the host presenting a word is how an operation comes to run (log
entry 3). -/
def State.withFetchWord (s : State) (nbits w : Nat) : State :=
  s.present [BitVec.ofNat 4 (w % 2 ^ nbits)]

end Sys2Proof.Machine
end

