-- ==== Sys2Proof/Machine/Instances.lean ====
section
/-! DEFINITION. Several blocks, each with its own host and its own state (R160): a product of copies. -/

namespace Sys2Proof.Machine

/-- The states of several blocks (R160). Block `i` has its own registers, its own coils, its own list of
control words and its own host, host `i` (D21; log entry 12). -/
abbrev Bank := List State

/-- One clock edge of block `i`, with the word of its own host; the others see nothing. Edges of different blocks are taken one at a
time (DESIGN CHOICE, log entry 9: they share nothing, so no order can be seen). -/
def stepAt (b : Bank) (i : Fin b.length) : Host.Outcome Bank Fault Refusal :=
  match step (b[i].drivenBy i) with
  | .next t => .next (b.set i t)
  | .fault f => .fault f
  | .refused r => .refused r

end Sys2Proof.Machine
end

