-- ==== Sys2Proof/Machine/Program.lean ====
section
/-! DEFINITION. The assembler notation: programs, the pseudo-operations and their expansion
(30_encoding.md, section 5). The block holds no program; these are sequences of words of the host. -/

namespace Sys2Proof.Machine

/-- A program (R68, R69): lines in order, with the repeat notation `n * { ... }`. The gap `g` of a
pseudo-operation is the host's argument. -/
inductive Program where
  /-- No line. -/
  | empty
  /-- The lines of one program followed by those of another. -/
  | seq (first second : Program)
  /-- A line with one of the five mnemonics. -/
  | op (i : Instr)
  /-- The line `STEP d`. -/
  | step (d : Direction)
  /-- `n * { body }`. -/
  | times (n : Nat) (body : Program)
  /-- `WAIT n`. -/
  | wait (n : Nat)
  /-- `HALFSTEP d, g`. -/
  | halfStep (d : Direction) (g : Nat)
  /-- `ROTATE d`, the quarter turn. -/
  | rotate (d : Direction) (g : Nat)
  /-- `ROTATE.FULL d`. -/
  | rotateFull (d : Direction) (g : Nat)
  /-- `ROTATE.N d, n`. -/
  | rotateN (d : Direction) (n g : Nat)
  deriving DecidableEq, Repr

/-- `n * { ... }` written out: the lines `n` times (R68). -/
def repeated {α : Type} (n : Nat) (lines : List α) : List α := (List.replicate n lines).flatten

/-- `WAIT n` = `n * { HOLD }` (R69). -/
def waitOps (n : Nat) : List Instr := repeated n [.hold]

/-- `HALFSTEP d, g` = `STEP d` followed by `WAIT g` (R69). -/
def halfStepOps (d : Direction) (g : Nat) : List Instr := stepOp d :: waitOps g

/-- `ROTATE.N d, n` = `n * { HALFSTEP d, g }` followed by `OFF` (R69). -/
def rotateOps (d : Direction) (n g : Nat) : List Instr := repeated n (halfStepOps d g) ++ [.off]

/-- The operations a program stands for (R68, R69). -/
def Program.expand : Program → List Instr
  | .empty => []
  | .seq p r => p.expand ++ r.expand
  | .op i => [i]
  | .step d => [stepOp d]
  | .times n p => repeated n p.expand
  | .wait n => waitOps n
  | .halfStep d g => halfStepOps d g
  | .rotate d g => rotateOps d Config.defaultSteps g
  | .rotateFull d g => rotateOps d Config.stepsPerRev g
  | .rotateN d n g => rotateOps d n g

/-- The control words an assembler emits: the canonical ones (R64). -/
def Program.assemble (p : Program) : List Ctl := p.expand.map encode

end Sys2Proof.Machine
end

