-- ==== Sys2Proof/Machine/Reference.lean ====
section
/-! DEFINITION. The software reference the spec quotes: the source's `apply_pattern`, its position
update and its `rotate` loop, with the four pin writes one at a time and in any order (R80, R81, R120;
91_not_in_source.md N6). It is written apart from the block's operations, so that the block can be
compared with it. -/

namespace Sys2Proof.Machine

/-- The source's table, "eight literals" of 8-bit-looking numbers (R42). -/
def sourceTable : Vector (BitVec 8) 8 :=
  #v[0x08, 0x0C, 0x04, 0x06, 0x02, 0x03, 0x01, 0x09]

/-- The table's entry for a position: `SequenceTable[position]` (R80). -/
def sourceWord (k : Fin 8) : BitVec 8 := sourceTable[k]

/-- What the software changes: its `current_position` and the level last written to each pin. -/
structure Software where
  position : Fin 8
  pins : Vector Level 4
  deriving DecidableEq, Repr

/-- `write_output` for coil `i` (R33). -/
def Software.write (m : Software) (i : Fin 4) (l : Level) : Software :=
  { m with pins := m.pins.set i l }

/-- `apply_pattern(position)`, the four coils taken in the given order (R80). -/
def Software.applyPattern (order : List (Fin 4)) (m : Software) : Software :=
  order.foldl
    (fun m i => m.write i (if (sourceWord m.position).getLsbD i then .active else .inactive)) m

/-- The position update in the source's words: "increment; if result > 7, wrap to 0", "decrement; if
result < 0, wrap to 7" (R81). -/
def Software.advance (d : Direction) (m : Software) : Software :=
  match d with
  | .clockwise =>
    { m with position := if m.position.val + 1 > 7 then 0 else m.position + 1 }
  | .counterClockwise =>
    { m with position := if (m.position.val : Int) - 1 < 0 then 7 else m.position - 1 }

/-- One iteration of the loop without its delay: apply, then update (R83). -/
def Software.halfStep (d : Direction) (order : List (Fin 4)) (m : Software) : Software :=
  (m.applyPattern order).advance d

/-- "Set all four coil outputs to the inactive level", in the given order (R100). -/
def Software.deEnergize (order : List (Fin 4)) (m : Software) : Software :=
  order.foldl (fun m i => m.write i .inactive) m

/-- The source's `rotate`: one iteration for each order, then the de-energize (R120). The delays
change no state. -/
def Software.rotate (d : Direction) (orders : List (List (Fin 4))) (offOrder : List (Fin 4))
    (m : Software) : Software :=
  (orders.foldl (fun m o => m.halfStep d o) m).deEnergize offOrder

end Sys2Proof.Machine
end

