-- ==== Sys2Proof/WellFormed.lean ====
section
/-! DEFINITION. Well-formedness: of operations (nothing to check) and of the host's arguments. -/

namespace Sys2Proof

/-- Every operation is well formed: none has an operand (R65) and none is reserved or illegal (R66). -/
def Instr.wf : Instr → Bool
  | .reset => true
  | .off => true
  | .stepCw => true
  | .stepCcw => true
  | .hold => true

/-- The invariants the spec gives the host's timing: `SPEED` is "strictly positive" and "stored in
sub-millisecond resolution" (R123), so a tick is shorter than a millisecond; a clock period takes time. -/
def Timing.wf (t : Timing) : Bool :=
  decide (0 < t.speed) && decide (1 < t.ticksPerMs) && decide (0 < t.tClk)

/-- Each coil is "bound to a distinct physical pin" (R46, R172), and no wire colour stands twice (R46). -/
def Platform.wf (p : Platform) : Bool :=
  decide p.pins.toList.Nodup && decide p.wires.toList.Nodup

/-- Several blocks have "disjoint output identifiers" (R160): no pin stands twice among all of them. -/
def platformsWf (ps : List Platform) : Bool :=
  ps.all Platform.wf && decide (ps.flatMap fun p => p.pins.toList).Nodup

/-- One ROTATE has one gap after each of its `N` STEPs (R120, R135), and each gap lasts at least the
applied delay of `floor(SPEED in ms)` milliseconds (R120, R123). -/
def RotateCall.wf (t : Timing) (c : RotateCall) : Bool :=
  decide (c.gaps.length = c.nSteps) &&
    c.gaps.all fun g => decide (t.speed / t.ticksPerMs * t.ticksPerMs ≤ g * t.tClk)

end Sys2Proof
end

