-- ==== Sys2Proof/Machine/Rotate.lean ====
section
/-! DEFINITION. The host's `rotate`: the control words it issues, its delays, and its arithmetic
(42_rotate_sequence.md, 70_reset_and_hazards.md section 4). Nothing here is in the block. -/

namespace Sys2Proof.Machine

/-- A gap of `g` HOLD edges. -/
def gapWords (g : Nat) : List Ctl := List.replicate g (encode .hold)

/-- The loop of R120: for each gap, in order, one `STEP d` and then the gap. -/
def rotateLoop (d : Direction) : List Nat → List Ctl
  | [] => []
  | g :: gs => encode (stepOp d) :: (gapWords g ++ rotateLoop d gs)

/-- ROTATE with direction `d` and gaps `g_1 … g_N` (R120): the loop, the last gap included (R122), and
then exactly one OFF. `N` is the number of gaps. -/
def rotateWords (d : Direction) (gaps : List Nat) : List Ctl :=
  rotateLoop d gaps ++ [encode .off]

/-- The words of a ROTATE call (R121: the count is explicit; a well-formed call has one gap a step). -/
def rotateCallWords (c : RotateCall) : List Ctl := rotateWords c.dir c.gaps

/-- A ROTATE cancelled at an iteration boundary, after `m` iterations: OFF is issued early (R125). -/
def cancelledWords (d : Direction) (gaps : List Nat) (m : Nat) : List Ctl :=
  rotateWords d (gaps.take m)

/-- The applied delay in whole milliseconds: `floor(SPEED in ms)`, "sub-millisecond remainders are
truncated" (R123). -/
def appliedDelayMs (t : Timing) : Nat := t.speed / t.ticksPerMs

/-- What the source's `rotate` does, as the host sees it: it presents operations and calls the
platform's `delay` (R120, R123). -/
inductive HostEvent where
  | present (i : Instr)
  | delay (ms : Nat)
  deriving DecidableEq, Repr

/-- The source's `rotate`: `N` times a half-step and a delay, then the de-energize (R120). -/
def rotateEvents (t : Timing) (d : Direction) : Nat → List HostEvent
  | 0 => [.present .off]
  | n + 1 => .present (stepOp d) :: .delay (appliedDelayMs t) :: rotateEvents t d n

/-- The arguments of the `delay` calls, in order (R135). -/
def delayCalls : List HostEvent → List Nat
  | [] => []
  | .present _ :: es => delayCalls es
  | .delay ms :: es => ms :: delayCalls es

/-- The fewest HOLD edges that last `ms` milliseconds. The spec gives only the lower bound
`g * T_CLK >= delay` (R120, R182); taking the least is a DESIGN CHOICE, log entry 7 (safe). -/
def gapFor (t : Timing) (ms : Nat) : Nat := (ms * t.ticksPerMs + (t.tClk - 1)) / t.tClk

/-- The control words that carry the host's events: an operation is its canonical word, a delay is its
gap (R120). -/
def eventWords (t : Timing) : List HostEvent → List Ctl
  | [] => []
  | .present i :: es => encode i :: eventWords t es
  | .delay ms :: es => gapWords (gapFor t ms) ++ eventWords t es

/-- The applied delay of a whole ROTATE, in milliseconds (R183; informative). -/
def rotateDelayMs (t : Timing) (n : Nat) : Nat := n * appliedDelayMs t

/-- Passes through the ROM in `n` half-steps (R184; informative). -/
def romPasses (n : Nat) : Nat := n / Config.nStates

/-- The angle of the output shaft after `n` half-steps, in revolutions (R184; informative). -/
def shaftRevolutions (n : Nat) : Rat := (n : Rat) / Config.stepsPerRev

end Sys2Proof.Machine
end

