-- ==== Sys2Proof/Machine/Flags.lean ====
section
/-! DEFINITION. The block has no status flags, condition codes or predicates (R25): no operation
computes one. This file holds the conditions on the latch that the spec names, which are read off the
state and stored nowhere. -/

namespace Sys2Proof.Machine

/-- The number of Active coils of a pattern (R43). -/
def activeCount (v : Pattern) : Nat := (List.range 4).countP fun i => v.getLsbD i

/-- *Energized*: `Q` ≠ 0b0000 (R162). -/
def State.energized (s : State) : Bool := s.q != 0b0000

/-- *Idle*: `Q` = 0b0000 (R162). -/
def State.idle (s : State) : Bool := s.q == 0b0000

end Sys2Proof.Machine
end

