-- ==== Sys2Proof/Machine/Ports.lean ====
section
/-! DEFINITION. The outputs of the block, the names of the coils, and what the platform makes of the
outputs outside the block. -/

namespace Sys2Proof.Machine

/-- The output port `coil[3:0]`, always equal to `Q` (R33). -/
def State.coil (s : State) : Pattern := s.q

/-- The output port `pos[2:0]`, always equal to `POS` (R33, R161). -/
def State.posPort (s : State) : Pos := s.pos

/-- Bit value 1 means Active and 0 Inactive (R11). -/
def levelOfBit (b : Bool) : Level := if b then .active else .inactive

/-- The level of coil `i`, the coil at bit `i` of `Q` (R22, R33). -/
def State.coilLevel (s : State) (i : Fin 4) : Level := levelOfBit (s.coil.getLsbD i)

/-- The coil's number in the source's section 4.1: coil 1 is bit 3, coil 4 is bit 0 (R44). -/
def coilNumber (i : Fin 4) : Nat := 4 - i.val

/-- The letters of the source's section 8. -/
inductive CoilLetter where
  | a
  | b
  | c
  | d
  deriving DecidableEq, Repr

/-- Coil A is bit 0, B bit 1, C bit 2, D bit 3 (R45, following 90_conflicts.md C1). -/
def coilLetter (i : Fin 4) : CoilLetter :=
  match i with
  | 0 => .a
  | 1 => .b
  | 2 => .c
  | 3 => .d

/-- The bits of a pattern that are Active, the highest first. -/
def activeBits (v : Pattern) : List (Fin 4) := [3, 2, 1, 0].filter fun i : Fin 4 => v.getLsbD i

/-- The electrical level on a pin for a logical level (R11): `true` is the high one. -/
def platformLevel (p : Platform) : Level → Bool
  | .active => p.activeHigh
  | .inactive => !p.activeHigh

/-- What the platform drives: each physical pin with its electrical level, coil by coil from bit 0
(R46, R11). Outside the block; no operation depends on it. -/
def platformDrive (p : Platform) (s : State) : List (Nat × Bool) :=
  (List.finRange 4).map fun i => (p.pins[i], platformLevel p (s.coilLevel i))

end Sys2Proof.Machine
end

