-- ==== Sys2Proof/Machine/Run.lean ====
section
/-! DEFINITION. Runs of the block: the words a host presents one after another, and what the outputs
show after each edge. -/

namespace Sys2Proof.Machine

/-- The run of the block over the control words `ws`, one edge each (R12, R68). -/
def runWords (ws : List Ctl) (s : State) : Host.Outcome State Fault Refusal :=
  Sys2Proof.core.run ws.length (s.present ws)

/-- The states after each of the next `n` edges. -/
def trace : Nat → State → List State
  | 0, _ => []
  | n + 1, s =>
    match step s with
    | .next t => t :: trace n t
    | .fault _ => []
    | .refused _ => []

/-- The values of the port `coil` after each edge of the run over `ws` (R127). -/
def coilTrace (ws : List Ctl) (s : State) : List Pattern :=
  (trace ws.length (s.present ws)).map State.coil

/-- The operations `is` one after another, without the host's side. -/
def runOps : List Instr → State → Host.Outcome State Fault Refusal
  | [], s => .next s
  | i :: is, s =>
    match exec i s with
    | .next t => runOps is t
    | .fault f => .fault f
    | .refused r => .refused r

end Sys2Proof.Machine
end

