-- ==== Sys2Proof/Safety.lean ====
section
/-! DEFINITION. What counts as a safe state and a safe run of the block. -/

namespace Sys2Proof.Machine

/-- The patterns the operations can write: the eight ROM words and 0b0000, "one of the nine values"
(R22). Never three or four coils Active, never two opposite ones (R171). -/
def legalPattern (v : Pattern) : Bool :=
  [0x0, 0x1, 0x2, 0x3, 0x4, 0x6, 0x8, 0x9, 0xC].contains v

/-- The latch is de-energized, or holds the word one place behind the position in the direction of the
last half-step (R85). -/
def State.latchTrails (s : State) : Prop :=
  s.q = 0b0000 ∨ s.q = memRead (s.pos - 1) ∨ s.q = memRead (s.pos + 1)

/-- A run of `n` edges from `s` is safe: it stops nowhere, and the coils show a legal pattern after
every edge. -/
def safeRun (n : Nat) (s : State) : Prop :=
  (∃ t, Sys2Proof.core.run n s = .next t) ∧ ∀ t ∈ trace n s, legalPattern t.coil = true

end Sys2Proof.Machine
end

