-- ==== Sys2Proof/Certificates/Slice0/Obligations.lean ====
section
/-! DEFINITION. The statements for the provers. Each docstring names the rule it formalises, and says
where the spec marks that rule as its own decision or derivation. The registers of a statement are
`pos` and `q`; `ctlIn`, `edge` and `stream` are the model's own fields (log entries 1, 2 and 12), and a
clause on them is the model's choice. -/

open Sys2Proof Sys2Proof.Machine

/-! ### Encoding -/

/-- R62 (the spec's decision D5): the priority chain, for every value of the four input bits, and every
control word is made of its four bits; a step with that word presented does that operation. -/
def Obligations.ControlWordDecodesByPriority : Prop :=
  (∀ (rst off stp dir : Bool) (s : State),
    let i : Instr :=
      if rst then .reset else if off then .off
      else if stp then (if dir then .stepCcw else .stepCw) else .hold
    decode (packCtl rst off stp dir) = i ∧
    step (s.present [packCtl rst off stp dir]) = exec i { s with edge := s.edge + 1 }) ∧
  ∀ w : Ctl, packCtl (w.getLsbD 3) (w.getLsbD 2) (w.getLsbD 1) (w.getLsbD 0) = w

/-- R63 (the spec's decision D3): each row's mask and match, the rows disjoint and covering, and the step
doing the selected row's operation. -/
def Obligations.OpcodeMapSelectsEachWordOnce : Prop :=
  ∀ w : Ctl,
    (decode w = .reset ↔ w &&& 0b1000 = 0b1000) ∧
    (decode w = .off ↔ w &&& 0b1100 = 0b0100) ∧
    (decode w = .stepCw ↔ w &&& 0b1111 = 0b0010) ∧
    (decode w = .stepCcw ↔ w &&& 0b1111 = 0b0011) ∧
    (decode w = .hold ↔ w &&& 0b1110 = 0b0000) ∧
    (∃! r, r ∈ opcodeMap ∧ r.selects w = true) ∧
    ∀ r ∈ opcodeMap, r.selects w = true → ∀ s : State,
      step (s.present [w]) = exec r.op { s with edge := s.edge + 1 }

/-- R64 (the spec's decision D3): the canonical words, their round trip, and that a non-canonical word
at the control port does what the canonical one does. -/
def Obligations.CanonicalWordsRoundTrip : Prop :=
  encode .reset = 0b1000 ∧ encode .off = 0b0100 ∧ encode .stepCw = 0b0010 ∧
  encode .stepCcw = 0b0011 ∧ encode .hold = 0b0000 ∧
  (∀ i : Instr, decode (encode i) = i) ∧
  ∀ (w : Ctl) (s : State), step (s.present [w]) = step (s.present [encode (decode w)])

/-- The table of all 16 control words of 30_encoding.md (for R63), written out. -/
def Obligations.SixteenControlWordsDecodeAsTabulated : Prop :=
  [(0b0000 : Ctl), 0b0001, 0b0010, 0b0011, 0b0100, 0b0101, 0b0110, 0b0111,
    0b1000, 0b1001, 0b1010, 0b1011, 0b1100, 0b1101, 0b1110, 0b1111].map decode =
  [.hold, .hold, .stepCw, .stepCcw, .off, .off, .off, .off,
    .reset, .reset, .reset, .reset, .reset, .reset, .reset, .reset]

/-- R69 (the spec's decision D18): the control words of each pseudo-operation, with the gap `g` the
host's; and the sequence of R120 with `n` equal gaps is ROTATE.N's. -/
def Obligations.PseudoOperationsAssembleAsWritten : Prop :=
  ∀ (d : Direction) (n g : Nat),
    let stepWord : Ctl := if d = .clockwise then 0b0010 else 0b0011
    let half : List Ctl := stepWord :: List.replicate g 0b0000
    (Program.wait n).assemble = List.replicate n 0b0000 ∧
    (Program.halfStep d g).assemble = half ∧
    (Program.rotate d g).assemble = (List.replicate 1024 half).flatten ++ [0b0100] ∧
    (Program.rotateFull d g).assemble = (List.replicate 4096 half).flatten ++ [0b0100] ∧
    (Program.rotateN d n g).assemble = (List.replicate n half).flatten ++ [0b0100] ∧
    (Program.rotateN d n g).assemble = rotateWords d (List.replicate n g) ∧
    ∀ (g' : Nat) (s : State), ∃ t u,
      runWords (Program.rotateN d n g).assemble s = .next t ∧
      runWords (Program.rotateN d n g').assemble s = .next u ∧ t.sameBlock u

/-- For every program (30_encoding.md section 5): the assembled words are canonical and decode to the
operations it stands for, and presenting them to the block, one an edge, does those operations in
order. The clause on `edge` is the model's choice (log entry 2). -/
def Obligations.AssembledProgramsRunAsTheirOperations : Prop :=
  ∀ (p : Program) (s : State),
    p.assemble.map decode = p.expand ∧
    (∀ w ∈ p.assemble, isCanonical w = true) ∧
    ∃ t, runOps p.expand s = .next t ∧
      runWords p.assemble s = .next { t with edge := t.edge + p.expand.length }

/-! ### The step -/

/-- One step is the operation that the sampled control word selects (R12, R13, R24), on the state whose
host has passed the edge. How the word stands in the state is the model's choice (log entries 1, 2, 3,
12). -/
def Obligations.StepRunsTheSampledOperation : Prop :=
  ∀ s : State,
    (∀ w ws, s.ctlIn = w :: ws →
      step s = exec (decode w) { s with ctlIn := ws, edge := s.edge + 1 }) ∧
    (s.ctlIn = [] →
      step s = exec (decode (Config.hostCtl s.stream s.edge)) { s with edge := s.edge + 1 }) ∧
    ∀ w < 16, step (s.withFetchWord 4 w) =
      exec (decode (BitVec.ofNat 4 w)) { s with edge := s.edge + 1 }

/-- R150: no operation, in any state and with any control word, faults or refuses. -/
def Obligations.EveryStepCompletes : Prop :=
  ∀ s : State,
    (∀ i : Instr, ∃ t, exec i s = .next t) ∧
    (∃ t, step s = .next t) ∧
    ∀ w : Ctl, ∃ t, step (s.present [w]) = .next t

/-- The host's inputs are no operation's to change (10_state.md R30, R32): the fields `ctlIn`, `edge`
and `stream` (the model's own, log entries 1, 2 and 12) are left alone by every operation. -/
def Obligations.OperationsLeaveHostInputsAlone : Prop :=
  ∀ (i : Instr) (s : State), ∃ t,
    exec i s = .next t ∧ t.ctlIn = s.ctlIn ∧ t.edge = s.edge ∧ t.stream = s.stream

/-- What one step may change, over all operations (10_state.md R21, R22; 60_exceptions.md R162): only
STEP and RESET move the position, only STEP leaves the idle condition, only OFF and RESET enter it, and
HOLD changes neither register. -/
def Obligations.OnlyNamedOperationsChangeRegisters : Prop :=
  ∀ s t : State, step s = .next t →
    (t.pos ≠ s.pos → decode s.ctl = .stepCw ∨ decode s.ctl = .stepCcw ∨ decode s.ctl = .reset) ∧
    (s.idle = true → t.energized = true → decode s.ctl = .stepCw ∨ decode s.ctl = .stepCcw) ∧
    (s.energized = true → t.idle = true → decode s.ctl = .off ∨ decode s.ctl = .reset) ∧
    (decode s.ctl = .hold → t.sameBlock s)

/-! ### The five operations -/

/-- R83 (the spec's decision D6). The whole next state is given, so everything else is unchanged. -/
def Obligations.StepCwAppliesPatternThenIncrements : Prop :=
  (∀ w : Ctl, decode w = .stepCw ↔ w = 0b0010) ∧
  ∀ s : State,
    exec .stepCw s =
      .next { s with q := memRead s.pos, pos := nextPos .clockwise s.pos } ∧
    exec .stepCw { s with pos := 7 } = .next { s with pos := 0, q := 0x9 } ∧
    (∀ v : Pattern, exec .stepCw { s with q := v } = exec .stepCw s) ∧
    (∃ t, exec .stepCw { s with q := memRead s.pos } = .next t ∧ t.coil = memRead s.pos) ∧
    exec .stepCw { s with pos := 1, q := 0x0 } = .next { s with pos := 2, q := 0xC }

/-- R84 (the spec's decision D6). The whole next state is given, so everything else is unchanged. -/
def Obligations.StepCcwAppliesPatternThenDecrements : Prop :=
  (∀ w : Ctl, decode w = .stepCcw ↔ w = 0b0011) ∧
  ∀ s : State,
    exec .stepCcw s =
      .next { s with q := memRead s.pos, pos := nextPos .counterClockwise s.pos } ∧
    exec .stepCcw { s with pos := 0 } = .next { s with pos := 7, q := 0x8 } ∧
    (∀ v : Pattern, exec .stepCcw { s with q := v } = exec .stepCcw s) ∧
    (∃ t u, exec .stepCw s = .next t ∧ exec .stepCcw s = .next u ∧ t.q = u.q ∧ t.pos ≠ u.pos) ∧
    exec .stepCcw { s with pos := 1, q := 0x0 } = .next { s with pos := 0, q := 0xC }

/-- R100 (the spec's decision D5). The whole next state is given, so everything else is unchanged. -/
def Obligations.OffClearsLatchKeepsPosition : Prop :=
  (∀ w : Ctl, decode w = .off ↔ w.getLsbD 3 = false ∧ w.getLsbD 2 = true) ∧
  (∀ s : State,
    exec .off s = .next { s with q := 0b0000 } ∧
    exec .off { s with q := 0b0000 } = .next { s with q := 0b0000 } ∧
    step (s.present [0b0110]) = .next { s with q := 0b0000, edge := s.edge + 1 } ∧
    step (s.present [0b0111]) = .next { s with q := 0b0000, edge := s.edge + 1 } ∧
    exec .off { s with pos := 0, q := 0x9 } = .next { s with pos := 0, q := 0x0 }) ∧
  ∀ (i : Instr) (s t : State), exec i s = .next t → s.q ≠ 0b0000 → t.q = 0b0000 →
    i = .off ∨ i = .reset

/-- R102 (the spec's decision D3). The whole next state is given, so everything else is unchanged. -/
def Obligations.HoldChangesNothing : Prop :=
  (∀ w : Ctl, decode w = .hold ↔
    w.getLsbD 3 = false ∧ w.getLsbD 2 = false ∧ w.getLsbD 1 = false) ∧
  ∀ s : State,
    exec .hold s = .next s ∧
    (∀ dir : Bool, step (s.present [packCtl false false false dir]) =
      .next { s with edge := s.edge + 1 }) ∧
    (∀ d : Direction, ∃ t, runWords [encode (stepOp d), 0b0000] s = .next t ∧ t.energized = true) ∧
    (∃ t, runWords [0b0100, 0b0000] s = .next t ∧ t.idle = true) ∧
    (∃ t, runWords [0b1000, 0b0000] s = .next t ∧ t.idle = true) ∧
    ∀ w : Ctl, w = 0b0000 ∨ w = 0b0001 →
      step (({ s with pos := 5, q := 0xA } : State).present [w]) =
        .next { s with pos := 5, q := 0xA, edge := s.edge + 1 }

/-- R104 (the spec's decision D8). The whole next state is given, so everything else is unchanged; it
is the same after any words whatever, so a RESET in the middle of a ROTATE abandons it. -/
def Obligations.ResetClearsBothRegisters : Prop :=
  (∀ w : Ctl, decode w = .reset ↔ w.getLsbD 3 = true) ∧
  (∀ s : State, exec .reset s = .next { s with pos := 0, q := 0b0000 }) ∧
  (∀ (ws : List Ctl) (off stp dir : Bool) (s : State),
    runWords (ws ++ [packCtl true off stp dir]) s =
      .next { s with pos := 0, q := 0b0000, edge := s.edge + ws.length + 1 }) ∧
  (∀ s : State, exec .reset { s with pos := 0, q := 0b0000 } =
    .next { s with pos := 0, q := 0b0000 }) ∧
  ∀ (w : Ctl) (s : State), 0b1000 ≤ w →
    step (({ s with pos := 5, q := 0xA } : State).present [w]) =
      .next { s with pos := 0, q := 0x0, edge := s.edge + 1 }

/-! ### Reset -/

/-- R35 (the spec's decision D8): the values after a RESET operation, from any state, a power-up state
(R36, log entry 5) among them, and that `State.reset` has them. -/
def Obligations.ResetValuesAsStated : Prop :=
  State.reset.pos = 0 ∧ State.reset.q = 0b0000 ∧
  (∀ s : State, ∃ t, exec .reset s = .next t ∧ t.pos = 0 ∧ t.q = 0b0000 ∧
    ∀ i : Fin 4, t.coilLevel i = .inactive) ∧
  ∀ (p : Pos) (v : Pattern), ∃ t,
    step ((State.powerUp p v).present [0b1000]) = .next t ∧ t.sameBlock State.reset

/-- R170 (the spec's decision D9): one or more edges with `rst` = 1 leave the reset state, whatever the
state before and the other three bits; the first edge with `rst` = 0 performs its operation from it. -/
def Obligations.ResetHoldsWhileRstStaysOne : Prop :=
  ∀ (ws : List Ctl) (s : State), ws ≠ [] → (∀ w ∈ ws, w.getLsbD 3 = true) →
    runWords ws s = .next { s with pos := 0, q := 0b0000, edge := s.edge + ws.length } ∧
    ∀ off stp dir : Bool,
      runWords (ws ++ [packCtl false off stp dir]) s =
        exec (decode (packCtl false off stp dir))
          { s with pos := 0, q := 0b0000, edge := s.edge + ws.length + 1 }

/-! ### The position -/

/-- R81: both next-position functions, as arithmetic modulo 8, bijective and inverse to each other; and
that they are what a STEP does to the position. -/
def Obligations.NextPosWrapsAndInverts : Prop :=
  (∀ p : Pos,
    (nextPos .clockwise p).toNat = (p.toNat + 1) % 8 ∧
    (nextPos .counterClockwise p).toNat = (p.toNat + 7) % 8 ∧
    (1 ≤ p.toNat → (nextPos .counterClockwise p).toNat = p.toNat - 1) ∧
    nextPos .counterClockwise (nextPos .clockwise p) = p ∧
    nextPos .clockwise (nextPos .counterClockwise p) = p) ∧
  nextPos .counterClockwise 0 = 7 ∧
  Function.Bijective (nextPos .clockwise) ∧
  Function.Bijective (nextPos .counterClockwise) ∧
  ∀ (d : Direction) (s : State), ∃ t u,
    exec (stepOp d) s = .next t ∧ t.pos = nextPos d s.pos ∧
    exec (stepOp d.opposite) t = .next u ∧ u.pos = s.pos

/-- R82: `n` STEPs in one direction, 8 of them in particular, the single cycle through all 8 positions,
and no terminal state. -/
def Obligations.StepsCycleThroughEightPositions : Prop :=
  (∀ (n : Nat) (s : State), ∃ t, runWords (List.replicate n 0b0010) s = .next t ∧
    (t.pos.toNat : Int) = ((s.pos.toNat : Int) + n) % 8) ∧
  (∀ (n : Nat) (s : State), ∃ t, runWords (List.replicate n 0b0011) s = .next t ∧
    (t.pos.toNat : Int) = ((s.pos.toNat : Int) - n) % 8) ∧
  (∀ (d : Direction) (s : State), ∃ t,
    runWords (List.replicate 8 (encode (stepOp d))) s = .next t ∧ t.pos = s.pos) ∧
  ∀ (d : Direction) (p p' : Pos), ∃ n < 8, posAfter d n p = p'

/-- The position after any words without a RESET counts the STEPs, Clockwise up and CounterClockwise
down, modulo 8; HOLDs and OFFs do not count (derived: R81, R100, R102). -/
def Obligations.PositionCountsNetSteps : Prop :=
  ∀ (ws : List Ctl) (s : State), (∀ w ∈ ws, decode w ≠ .reset) →
    ∃ t, runWords ws s = .next t ∧
      (t.pos.toNat : Int) =
        ((s.pos.toNat : Int) + ((ws.map decode).count .stepCw : Int)
          - ((ws.map decode).count .stepCcw : Int)) % 8

/-- R131: `N` half-steps one way and `N` back return the position, either way first, and with OFFs and
HOLDs anywhere in between (any order of equally many of each, in fact). -/
def Obligations.RoundTripReturnsThePosition : Prop :=
  (∀ (d : Direction) (n : Nat) (s : State), ∃ t,
    runWords (List.replicate n (encode (stepOp d)) ++
      List.replicate n (encode (stepOp d.opposite))) s = .next t ∧ t.pos = s.pos) ∧
  ∀ (ws : List Ctl) (s : State), (∀ w ∈ ws, decode w ≠ .reset) →
    (ws.map decode).count .stepCw = (ws.map decode).count .stepCcw →
    ∃ t, runWords ws s = .next t ∧ t.pos = s.pos

/-- R29: the position persists through HOLDs and OFFs and from one ROTATE to the next, and not through
a RESET or a loss of power. -/
def Obligations.PositionPersistsUntilReset : Prop :=
  (∀ (ws : List Ctl) (s : State), (∀ w ∈ ws, decode w = .hold ∨ decode w = .off) →
    ∃ t, runWords ws s = .next t ∧ t.pos = s.pos) ∧
  (∀ (d : Direction) (gaps : List Nat) (n : Nat) (s : State), ∃ t u,
    runWords (rotateWords d gaps) s = .next t ∧
    runWords (rotateWords d gaps ++ List.replicate n 0b0000) s = .next u ∧ u.pos = t.pos) ∧
  (∀ s : State, ∃ t, exec .reset s = .next t ∧ t.pos = 0) ∧
  ∀ p : Pos, ∃ v : Pattern, (State.powerUp p v).pos = p

/-- From every state every position is at most four half-steps away (derived: R82). -/
def Obligations.EveryPositionReachableInFourSteps : Prop :=
  ∀ (s : State) (p : Pos), ∃ (d : Direction) (n : Nat), n ≤ 4 ∧ ∃ t,
    runWords (List.replicate n (encode (stepOp d))) s = .next t ∧ t.pos = p

/-! ### The ROM and the latch -/

/-- R42 (the spec's decision D23): the eight words, and that a STEP loads the low four bits of the
source's literal, whose upper four are zero. -/
def Obligations.RomHoldsTheEightWords : Prop :=
  memRead 0 = 0x8 ∧ memRead 1 = 0xC ∧ memRead 2 = 0x4 ∧ memRead 3 = 0x6 ∧
  memRead 4 = 0x2 ∧ memRead 5 = 0x3 ∧ memRead 6 = 0x1 ∧ memRead 7 = 0x9 ∧
  ∀ (d : Direction) (s : State), ∃ t,
    exec (stepOp d) s = .next t ∧ t.q.setWidth 8 = sourceWord s.pos.toFin

/-- R43 (derived by the spec from R42): the properties of the eight words, and their consequence for the
coils: of two STEPs in one direction, the second changes the level of exactly one coil. -/
def Obligations.RomWordsAlternateAndOverlap : Prop :=
  (∀ k : Pos,
    activeCount (memRead k) = (if k.toNat % 2 = 0 then 1 else 2) ∧
    memRead k ≠ 0b0000 ∧
    (k.toNat % 2 = 1 → memRead k = memRead (k - 1) ||| memRead (k + 1)) ∧
    activeCount (memRead k ^^^ memRead (k + 1)) = 1) ∧
  Function.Injective memRead ∧
  ∀ (d : Direction) (s : State), ∃ t u,
    exec (stepOp d) s = .next t ∧ exec (stepOp d) t = .next u ∧
    ∃ i : Fin 4, t.coilLevel i ≠ u.coilLevel i ∧
      ∀ j : Fin 4, j ≠ i → t.coilLevel j = u.coilLevel j

/-- R44 (derived by the spec from R42) and R45 (conflict C1, decision D14): the coils a STEP makes Active,
by number, follow the excitation order 1, 1&2, 2, 2&3, 3, 3&4, 4, 4&1; and the corrected example in
letters. -/
def Obligations.CoilNamesFollowTheExcitationOrder : Prop :=
  ∀ (d : Direction) (s : State), ∃ t, exec (stepOp d) s = .next t ∧
    some ((activeBits t.coil).map coilNumber) =
      [[1], [1, 2], [2], [2, 3], [3], [3, 4], [4], [1, 4]][s.pos.toNat]? ∧
    (s.pos = 1 → (activeBits t.coil).map coilLetter = [.d, .c])

/-- R133: a STEP at position `k` leaves the word of the table, and the corrected example at `k` = 1. -/
def Obligations.StepShowsThePatternOfItsPosition : Prop :=
  ∀ (d : Direction) (s : State),
    (∃ t, exec (stepOp d) s = .next t ∧ t.q = memRead s.pos) ∧
    (∃ t, exec (stepOp d) s = .next t ∧
      ∀ i : Fin 4, t.coilLevel i =
        if (sourceWord s.pos.toFin).getLsbD i then .active else .inactive) ∧
    ∃ t, exec (stepOp d) { s with pos := 1 } = .next t ∧
      t.coilLevel 3 = .active ∧ t.coilLevel 2 = .active ∧
      t.coilLevel 1 = .inactive ∧ t.coilLevel 0 = .inactive

/-- R33 (the spec's decision D11): the outputs are the registers, whatever the inputs, and what
they are after an edge depends on the state and on that edge's word, not on later ones. -/
def Obligations.OutputsAreTheRegisters : Prop :=
  ∀ (s : State) (ws : List Ctl),
    (s.present ws).coil = s.q ∧ (s.present ws).posPort = s.pos ∧
    (∀ i : Fin 4, (s.present ws).coilLevel i = if s.q.getLsbD i then .active else .inactive) ∧
    ∀ (w : Ctl) (ws' : List Ctl), ∃ t u,
      step (s.present (w :: ws)) = .next t ∧ step (s.present (w :: ws')) = .next u ∧
      t.coil = u.coil ∧ t.posPort = u.posPort

/-- After an OFF every physical pin is at the electrical level of Inactive, whatever the platform's
parameters (derived: R11, R46, R100; log entry 8). -/
def Obligations.OffDrivesEveryPinInactive : Prop :=
  ∀ (p : Platform) (s : State), ∃ t, exec .off s = .next t ∧
    platformDrive p t = p.pins.toList.map fun n => (n, !p.activeHigh)

/-- R85 (derived by the spec from R83 and R84): the latch trails the counter by one place. -/
def Obligations.LatchTrailsTheCounterAfterStep : Prop :=
  ∀ s : State,
    (∃ t, exec .stepCw s = .next t ∧ t.q = memRead (t.pos - 1) ∧ t.q ≠ memRead t.pos) ∧
    (∃ t, exec .stepCcw s = .next t ∧ t.q = memRead (t.pos + 1) ∧ t.q ≠ memRead t.pos)

/-- The invariant "the latch is clear or one place from the position" is kept by every step from every
state that has it, and entered by every operation but HOLD from every state whatever (derived: R85,
R100, R104). -/
def Obligations.EveryStepKeepsTheLatchTrailing : Prop :=
  (∀ s t : State, s.latchTrails → step s = .next t → t.latchTrails) ∧
  ∀ (i : Instr) (s : State), i ≠ .hold → ∃ t, exec i s = .next t ∧ t.latchTrails

/-- The invariant of `EveryStepKeepsTheLatchTrailing` holds at reset (derived: R35). -/
def Obligations.ResetStateHasTheLatchTrailing : Prop :=
  State.reset.latchTrails

/-- R22 (derived by the spec): after the first RESET, OFF or STEP, from any state, the latch holds one of
the nine values, after that word and after every later one. -/
def Obligations.LatchLegalOnceWritten : Prop :=
  ∀ (ws : List Ctl) (s : State), (∃ w ∈ ws, decode w ≠ .hold) →
    ∃ t, runWords ws s = .next t ∧ t.q ∈ [0x0, 0x1, 0x2, 0x3, 0x4, 0x6, 0x8, 0x9, 0xC]

/-- From every state whose latch holds one of the nine values every run is safe, whatever the host
presents (derived: R22, R150, R171). -/
def Obligations.LegalLatchMakesEveryRunSafe : Prop :=
  ∀ (n : Nat) (s : State), legalPattern s.q = true → safeRun n s

/-- The old latch never matters (10_state.md R22: `Q` is read only by the port `coil`; 40_step.md R83,
R84): once a word other than HOLD has come, nothing is left of it. -/
def Obligations.OldLatchIsForgotten : Prop :=
  ∀ (ws : List Ctl) (s : State) (v : Pattern), (∃ w ∈ ws, decode w ≠ .hold) →
    ∃ t, runWords ws s = .next t ∧ runWords ws { s with q := v } = .next t

/-- The two registers are all the block is (10_state.md R20, R31, R33): two states that agree on them
show the same coils for ever under the same words, whatever else differs. -/
def Obligations.SevenBitsDetermineTheFuture : Prop :=
  ∀ (ws : List Ctl) (s u : State), s.sameBlock u →
    coilTrace ws s = coilTrace ws u ∧
    ∃ t v, runWords ws s = .next t ∧ runWords ws u = .next v ∧ t.sameBlock v

/-! ### OFF, HOLD and dropped requests -/

/-- R101 (derived by the spec from R100 and R102). -/
def Obligations.OffIsIdempotentAndLasts : Prop :=
  ∀ (n : Nat) (d : Direction) (s : State),
    runWords (0b0100 :: List.replicate n 0b0000) s =
      .next { s with q := 0b0000, edge := s.edge + n + 1 } ∧
    (∃ t u, runWords [0b0100] s = .next t ∧ runWords [0b0100, 0b0100] s = .next u ∧
      t.sameBlock u) ∧
    ∃ t, runWords [0b0100, encode (stepOp d)] s = .next t ∧
      t.q = memRead s.pos ∧ t.pos = nextPos d s.pos

/-- R103 (the spec's decision D17): however many HOLDs come, no register changes. -/
def Obligations.HoldsNeverTimeOut : Prop :=
  ∀ (ws : List Ctl) (s : State), (∀ w ∈ ws, w = 0b0000 ∨ w = 0b0001) →
    runWords ws s = .next { s with edge := s.edge + ws.length }

/-- R89 (derived by the spec): after a STEP one or two coils are Active, and stay so through any number
of HOLDs. -/
def Obligations.SteppedCoilsStayEnergized : Prop :=
  ∀ (d : Direction) (n : Nat) (s : State), ∃ t,
    runWords (encode (stepOp d) :: List.replicate n 0b0000) s = .next t ∧
    t.coil = memRead s.pos ∧ 1 ≤ activeCount t.coil ∧ activeCount t.coil ≤ 2

/-- R154 (the spec's decision D5): `rst` over `off` over `step`, none of them is HOLD, and the losing
requests are dropped: a whole run is the same with them cleared. -/
def Obligations.LosingRequestsAreDropped : Prop :=
  (∀ (off stp dir : Bool) (s : State),
    step (s.present [packCtl true off stp dir]) = step (s.present [0b1000])) ∧
  (∀ (stp dir : Bool) (s : State),
    step (s.present [packCtl false true stp dir]) = step (s.present [0b0100])) ∧
  (∀ (dir : Bool) (s : State),
    step (s.present [packCtl false false false dir]) = .next { s with edge := s.edge + 1 }) ∧
  ∀ (ws : List Ctl) (s : State),
    runWords ws s = runWords (ws.map fun w => encode (decode w)) s

/-- R180 (derived by the spec): a STEP after an OFF switches on the coils of `ROM[POS]`, two when `POS`
is odd and one when it is even. -/
def Obligations.StepAfterOffSwitchesCoilsOn : Prop :=
  ∀ (d : Direction) (s : State), ∃ t u,
    exec .off s = .next t ∧ (∀ i : Fin 4, t.coilLevel i = .inactive) ∧
    exec (stepOp d) t = .next u ∧ u.coil = memRead s.pos ∧
    activeCount u.coil = if s.pos.toNat % 2 = 1 then 2 else 1

/-- R176 (derived by the spec): after `n + 1` STEPs from `p` the first STEP back applies one place
further, only the second applies the last place again; and as many STEPs back as forth leave the last
applied index one place from `p`. -/
def Obligations.ReversalRepeatsOneStepLate : Prop :=
  ∀ (d : Direction) (n : Nat) (s : State),
    (∃ t u v,
      runWords (List.replicate (n + 1) (encode (stepOp d))) s = .next t ∧
      exec (stepOp d.opposite) t = .next u ∧ exec (stepOp d.opposite) u = .next v ∧
      t.q = memRead (posAfter d n s.pos) ∧ t.pos = posAfter d (n + 1) s.pos ∧
      u.q = memRead (posAfter d (n + 1) s.pos) ∧ v.q = memRead (posAfter d n s.pos)) ∧
    ∃ t, runWords (List.replicate (n + 1) (encode (stepOp d)) ++
        List.replicate (n + 1) (encode (stepOp d.opposite))) s = .next t ∧
      t.pos = s.pos ∧ t.q = memRead (nextPos d s.pos)

/-! ### The rotate sequence -/

/-- R120 and R122 (the spec's decision D24): `N` times a STEP and its gap, the last one included, then
exactly one OFF, and none before it. -/
def Obligations.RotateIssuesOneOffAfterTheLastGap : Prop :=
  ∀ (d : Direction) (gaps : List Nat),
    let stepWord : Ctl := if d = .clockwise then 0b0010 else 0b0011
    rotateWords d gaps =
      (gaps.map fun g => stepWord :: List.replicate g 0b0000).flatten ++ [0b0100] ∧
    ((rotateWords d gaps).map decode).count (stepOp d) = gaps.length ∧
    ((rotateWords d gaps).map decode).count .off = 1 ∧
    ∀ g : Nat, ∃ before : List Ctl, (∀ w ∈ before, decode w ≠ .off) ∧
      rotateWords d (gaps ++ [g]) =
        before ++ stepWord :: (List.replicate g 0b0000 ++ [0b0100])

/-- R126 (derived by the spec): where a ROTATE ends. The gaps enter only by their number. -/
def Obligations.RotateEndState : Prop :=
  ∀ (d : Direction) (gaps : List Nat) (s : State),
    (∃ t, runWords (rotateWords d gaps) s = .next t ∧ t.q = 0b0000 ∧
      (t.pos.toNat : Int) =
        (match d with
          | .clockwise => (s.pos.toNat : Int) + gaps.length
          | .counterClockwise => (s.pos.toNat : Int) - gaps.length) % 8) ∧
    rotateWords d [] = [0b0100] ∧
    (8 ∣ gaps.length → ∃ t, runWords (rotateWords d gaps) s = .next t ∧ t.pos = s.pos)

/-- R127 (derived by the spec): the values of `coil` after each edge of a ROTATE. -/
def Obligations.RotateCoilTrace : Prop :=
  ∀ (d : Direction) (gaps : List Nat) (s : State),
    coilTrace (rotateWords d gaps) s =
      (gaps.zipIdx.map fun (g, k) =>
        List.replicate (g + 1) (memRead
          (match d with
            | .clockwise => s.pos + BitVec.ofNat 3 k
            | .counterClockwise => s.pos - BitVec.ofNat 3 k))).flatten ++ [0b0000]

/-- R128 (derived by the spec): two ROTATEs in one direction show the coils of one ROTATE of both
counts, apart from the OFF in the middle, and end at its position. -/
def Obligations.RotationsComposeThroughThePosition : Prop :=
  ∀ (d : Direction) (g₁ g₂ : List Nat) (s : State),
    (∃ first second : List Pattern,
      first = coilTrace (rotateLoop d g₁) s ∧
      coilTrace (rotateWords d (g₁ ++ g₂)) s = first ++ second ++ [0b0000] ∧
      coilTrace (rotateWords d g₁ ++ rotateWords d g₂) s =
        first ++ [0b0000] ++ second ++ [0b0000]) ∧
    ∃ t u, runWords (rotateWords d g₁ ++ rotateWords d g₂) s = .next t ∧
      runWords (rotateWords d (g₁ ++ g₂)) s = .next u ∧ t.sameBlock u

/-- R132 (derived by the spec; the source's own words corrected, conflict C2): the patterns of the way
back are those of the way out, reversed, with every index raised by one. -/
def Obligations.RoundTripPatternsShiftByOne : Prop :=
  (∀ (n : Nat) (s : State),
    coilTrace (List.replicate n 0b0010 ++ List.replicate n 0b0011) s =
      (List.range n).map (fun k => memRead (s.pos + BitVec.ofNat 3 k)) ++
      ((List.range n).map fun k => memRead (s.pos + BitVec.ofNat 3 k + 1)).reverse) ∧
  ∀ p : Pos, memRead p ≠ memRead (p + 1)

/-- R134: after the OFF that ends a ROTATE all coils are Inactive, and stay so through HOLDs. -/
def Obligations.CompletedRotateLeavesCoilsInactive : Prop :=
  ∀ (d : Direction) (gaps : List Nat) (n : Nat) (s : State), ∃ t,
    runWords (rotateWords d gaps ++ List.replicate n 0b0000) s = .next t ∧ t.q = 0b0000 ∧
    ∀ i : Fin 4, t.coilLevel i = .inactive

/-- R136: RESET and then a Clockwise ROTATE of 1024, with any gaps, from any state; and the patterns its
STEPs apply, by table index, and written out for gaps of no HOLD. -/
def Obligations.QuarterTurnScenario : Prop :=
  (∀ (gaps : List Nat) (s : State), gaps.length = 1024 →
    (∃ t, runWords (0b1000 :: rotateWords .clockwise gaps) s = .next t ∧
      t.pos = 0 ∧ t.q = 0b0000) ∧
    coilTrace (0b1000 :: rotateWords .clockwise gaps) s =
      [0x0] ++ (gaps.zipIdx.map fun (g, k) =>
        List.replicate (g + 1) (memRead (BitVec.ofNat 3 (k % 8)))).flatten ++ [0x0]) ∧
  ∀ s : State,
    coilTrace (0b1000 :: rotateWords .clockwise (List.replicate 1024 0)) s =
      [0x0] ++ (List.replicate 128 [0x8, 0xC, 0x4, 0x6, 0x2, 0x3, 0x1, 0x9]).flatten ++ [0x0]

/-- R125 (the spec's decision D25): a ROTATE cancelled after `m` iterations ends as R126 says with the
number of STEPs actually issued. -/
def Obligations.CancelledRotateEndState : Prop :=
  ∀ (d : Direction) (gaps : List Nat) (m : Nat) (s : State), m ≤ gaps.length →
    ((cancelledWords d gaps m).map decode).count (stepOp d) = m ∧
    ∃ t, runWords (cancelledWords d gaps m) s = .next t ∧ t.q = 0b0000 ∧
      (t.pos.toNat : Int) =
        (match d with
          | .clockwise => (s.pos.toNat : Int) + m
          | .counterClockwise => (s.pos.toNat : Int) - m) % 8

/-- Exactly `N` delays, each of the truncated argument, one after each STEP; as control words they are the
gaps of R120, which the block does not check: whatever they are, the end is the same (derived: R120,
R123, R135). That the speed and the millisecond are whole numbers of a tick, so that the argument is
`speed / ticksPerMs`, is the model's choice (log entry 6), and so is the length `gapFor` of a gap (log
entry 7). -/
def Obligations.RotateDelaysOncePerHalfStep : Prop :=
  ∀ (t : Timing) (d : Direction) (n : Nat),
    delayCalls (rotateEvents t d n) = List.replicate n (t.speed / t.ticksPerMs) ∧
    eventWords t (rotateEvents t d n) =
      rotateWords d (List.replicate n (gapFor t (t.speed / t.ticksPerMs))) ∧
    ∀ (g₁ g₂ : List Nat) (s : State), g₁.length = g₂.length → ∃ u v,
      runWords (rotateWords d g₁) s = .next u ∧ runWords (rotateWords d g₂) s = .next v ∧
      u.sameBlock v

/-- The gap the model takes for a delay lasts at least that delay, and no shorter one does; so a call
with such gaps is well formed (derived: R120, R123, R182; log entries 6 and 7). -/
def Obligations.GapIsTheLeastThatCoversTheDelay : Prop :=
  ∀ (t : Timing) (ms : Nat), 0 < t.tClk →
    ms * t.ticksPerMs ≤ gapFor t ms * t.tClk ∧
    (∀ g : Nat, ms * t.ticksPerMs ≤ g * t.tClk → gapFor t ms ≤ g) ∧
    ∀ (d : Direction) (n : Nat), RotateCall.wf t
      { dir := d, nSteps := n, gaps := List.replicate n (gapFor t (appliedDelayMs t)) } = true

/-! ### The reference software, and several blocks -/

/-- The source's whole `rotate`, its four pin writes in any order at every iteration and at the end, and
the block under the host's ROTATE end alike: at the same position and, after the de-energize of both,
with the same level on every coil, which is Inactive; the patterns on the way are
`StepIsOneSoftwareIteration`'s (derived: R80, R81, R83, R84, R100, R120). That the software reference
keeps a position of 0 to 7 and four levels, and takes the orders of its pin writes as arguments, is the
model's choice (log entry 11). -/
def Obligations.BlockRefinesTheSoftwareRotate : Prop :=
  ∀ (d : Direction) (orders : List (List (Fin 4))) (offOrder : List (Fin 4)) (gaps : List Nat)
    (s : State) (m : Software),
    (∀ o ∈ orders, o.Perm [0, 1, 2, 3]) → offOrder.Perm [0, 1, 2, 3] →
    gaps.length = orders.length → m.position = s.pos.toFin →
    ∃ t, runWords (rotateWords d gaps) s = .next t ∧
      (m.rotate d orders offOrder).position = t.pos.toFin ∧
      ∀ i : Fin 4, (m.rotate d orders offOrder).pins[i] = t.coilLevel i

/-- One STEP is one iteration of the source's loop, `apply_pattern` with its four pin writes in any
order and then the position update (derived: R80, R81, R83, R84; the spec's decisions D6 and D7). The form of
the software reference is the model's choice (log entry 11). -/
def Obligations.StepIsOneSoftwareIteration : Prop :=
  ∀ (d : Direction) (order : List (Fin 4)) (s : State) (m : Software),
    order.Perm [0, 1, 2, 3] → m.position = s.pos.toFin →
    ∃ t, exec (stepOp d) s = .next t ∧
      (m.halfStep d order).position = t.pos.toFin ∧
      ∀ i : Fin 4, (m.halfStep d order).pins[i] = t.coilLevel i

/-- Several blocks share nothing (derived: R160 and the spec's decision D21, independent hosts): a clock
edge of one is its own step with the word of its own host, the next of its own list or else the free
word of its own stream, and no other block changes. That one block takes its edge at a time is the
model's choice (log entry 9), and so is the number of its stream (log entry 12). -/
def Obligations.BlocksShareNoState : Prop :=
  ∀ (b : Bank) (i : Fin b.length), ∃ b' t,
    stepAt b i = .next b' ∧ step (b[i].drivenBy i) = .next t ∧
    b'.length = b.length ∧ b'[i.val]? = some t ∧
    (∀ j : Nat, j ≠ i.val → b'[j]? = b[j]?) ∧
    (∀ w ws, b[i].ctlIn = w :: ws →
      exec (decode w) { b[i] with ctlIn := ws, stream := i, edge := b[i].edge + 1 } = .next t) ∧
    (b[i].ctlIn = [] →
      exec (decode (Config.hostCtl i b[i].edge))
        { b[i] with stream := i, edge := b[i].edge + 1 } = .next t)
end

