-- ==== Sys2Proof/Laws/State.lean ====
section
/-! SUPPORT. One lemma per field per update of State. -/

namespace Sys2Proof.Machine

@[simp] theorem State.writePos_pos (s : State) (v : Pos) : (s.writePos v).pos = v := rfl
@[simp] theorem State.writePos_q (s : State) (v : Pos) : (s.writePos v).q = s.q := rfl
@[simp] theorem State.writePos_ctlIn (s : State) (v : Pos) : (s.writePos v).ctlIn = s.ctlIn := rfl
@[simp] theorem State.writePos_edge (s : State) (v : Pos) : (s.writePos v).edge = s.edge := rfl
@[simp] theorem State.writePos_stream (s : State) (v : Pos) : (s.writePos v).stream = s.stream := rfl

@[simp] theorem State.writeQ_pos (s : State) (v : Pattern) : (s.writeQ v).pos = s.pos := rfl
@[simp] theorem State.writeQ_q (s : State) (v : Pattern) : (s.writeQ v).q = v := rfl
@[simp] theorem State.writeQ_ctlIn (s : State) (v : Pattern) : (s.writeQ v).ctlIn = s.ctlIn := rfl
@[simp] theorem State.writeQ_edge (s : State) (v : Pattern) : (s.writeQ v).edge = s.edge := rfl
@[simp] theorem State.writeQ_stream (s : State) (v : Pattern) : (s.writeQ v).stream = s.stream := rfl

@[simp] theorem applyPattern_pos (k : Pos) (s : State) : (applyPattern k s).pos = s.pos := rfl
@[simp] theorem applyPattern_q (k : Pos) (s : State) : (applyPattern k s).q = memRead k := rfl
@[simp] theorem applyPattern_ctlIn (k : Pos) (s : State) : (applyPattern k s).ctlIn = s.ctlIn := rfl
@[simp] theorem applyPattern_edge (k : Pos) (s : State) : (applyPattern k s).edge = s.edge := rfl
@[simp] theorem applyPattern_stream (k : Pos) (s : State) : (applyPattern k s).stream = s.stream := rfl

@[simp] theorem halfStep_pos (d : Direction) (s : State) : (halfStep d s).pos = nextPos d s.pos := rfl
@[simp] theorem halfStep_q (d : Direction) (s : State) : (halfStep d s).q = memRead s.pos := rfl
@[simp] theorem halfStep_ctlIn (d : Direction) (s : State) : (halfStep d s).ctlIn = s.ctlIn := rfl
@[simp] theorem halfStep_edge (d : Direction) (s : State) : (halfStep d s).edge = s.edge := rfl
@[simp] theorem halfStep_stream (d : Direction) (s : State) : (halfStep d s).stream = s.stream := rfl

@[simp] theorem deEnergize_pos (s : State) : (deEnergize s).pos = s.pos := rfl
@[simp] theorem deEnergize_q (s : State) : (deEnergize s).q = 0b0000 := rfl
@[simp] theorem deEnergize_ctlIn (s : State) : (deEnergize s).ctlIn = s.ctlIn := rfl
@[simp] theorem deEnergize_edge (s : State) : (deEnergize s).edge = s.edge := rfl
@[simp] theorem deEnergize_stream (s : State) : (deEnergize s).stream = s.stream := rfl

@[simp] theorem State.passEdge_pos (s : State) : s.passEdge.pos = s.pos := rfl
@[simp] theorem State.passEdge_q (s : State) : s.passEdge.q = s.q := rfl
@[simp] theorem State.passEdge_ctlIn (s : State) : s.passEdge.ctlIn = s.ctlIn.tail := rfl
@[simp] theorem State.passEdge_stream (s : State) : s.passEdge.stream = s.stream := rfl
@[simp] theorem State.passEdge_edge (s : State) : s.passEdge.edge = s.edge + 1 := rfl

@[simp] theorem State.present_pos (s : State) (ws : List Ctl) : (s.present ws).pos = s.pos := rfl
@[simp] theorem State.present_q (s : State) (ws : List Ctl) : (s.present ws).q = s.q := rfl
@[simp] theorem State.present_ctlIn (s : State) (ws : List Ctl) :
    (s.present ws).ctlIn = ws ++ s.ctlIn := rfl
@[simp] theorem State.present_edge (s : State) (ws : List Ctl) : (s.present ws).edge = s.edge := rfl
@[simp] theorem State.present_stream (s : State) (ws : List Ctl) : (s.present ws).stream = s.stream := rfl

@[simp] theorem State.drivenBy_pos (s : State) (h : Nat) : (s.drivenBy h).pos = s.pos := rfl
@[simp] theorem State.drivenBy_q (s : State) (h : Nat) : (s.drivenBy h).q = s.q := rfl
@[simp] theorem State.drivenBy_ctlIn (s : State) (h : Nat) : (s.drivenBy h).ctlIn = s.ctlIn := rfl
@[simp] theorem State.drivenBy_stream (s : State) (h : Nat) : (s.drivenBy h).stream = h := rfl
@[simp] theorem State.drivenBy_edge (s : State) (h : Nat) : (s.drivenBy h).edge = s.edge := rfl

@[simp] theorem State.present_nil (s : State) : s.present [] = s := rfl

@[simp] theorem State.ctl_present_cons (s : State) (w : Ctl) (ws : List Ctl) :
    (s.present (w :: ws)).ctl = w := rfl

end Sys2Proof.Machine
end

