-- ==== Sys2Proof/Laws/Exec.lean ====
section
/-! SUPPORT. Everything an operation can do, once: the state it leaves, field by field. -/

namespace Sys2Proof.Machine

/-- The state an operation leaves. -/
def effect (i : Instr) (s : State) : State :=
  match i with
  | .reset => (deEnergize s).writePos 0
  | .off => deEnergize s
  | .stepCw => halfStep .clockwise s
  | .stepCcw => halfStep .counterClockwise s
  | .hold => s

theorem exec_eq_effect (i : Instr) (s : State) : exec i s = .next (effect i s) := by
  cases i <;> rfl

/-- An operation's next state, if it answers one, is its effect. -/
theorem eq_effect_of_exec {i : Instr} {s t : State} (h : exec i s = .next t) : t = effect i s := by
  rw [exec_eq_effect] at h
  injection h with h
  exact h.symm

@[simp] theorem effect_ctlIn (i : Instr) (s : State) : (effect i s).ctlIn = s.ctlIn := by
  cases i <;> rfl

@[simp] theorem effect_edge (i : Instr) (s : State) : (effect i s).edge = s.edge := by
  cases i <;> rfl

@[simp] theorem effect_stream (i : Instr) (s : State) : (effect i s).stream = s.stream := by
  cases i <;> rfl

/-- What an operation does to the registers does not depend on the host's side. -/
theorem effect_sameBlock (i : Instr) {s t : State} (h : s.sameBlock t) :
    (effect i s).sameBlock (effect i t) := by
  obtain ⟨hp, hq⟩ := h
  cases i <;> simp [State.sameBlock, effect, hp, hq]

end Sys2Proof.Machine
end

