-- ==== Sys2Proof/Laws/Instances.lean ====
section
/-! SUPPORT. Everything a clock edge of one of several blocks can do. -/

namespace Sys2Proof.Machine

/-- The one block takes the effect of the word of its own host; its place alone is written. -/
theorem stepAt_eq_set (b : Bank) (i : Fin b.length) :
    stepAt b i =
      .next (b.set i (effect (decode (b[i].drivenBy i).ctl) (b[i].drivenBy i).passEdge)) := by
  simp only [stepAt, step, exec_eq_effect]

end Sys2Proof.Machine
end

