-- ==== Sys2Proof/Laws/Operands.lean ====
section
/-! SUPPORT. NextPos and its iteration as arithmetic on 3-bit words. -/

namespace Sys2Proof.Machine

theorem nextPos_clockwise (p : Pos) : nextPos .clockwise p = p + 1 := by
  revert p; decide

theorem nextPos_counterClockwise (p : Pos) : nextPos .counterClockwise p = p - 1 := by
  revert p; decide

/-- Either direction undoes the other. -/
theorem nextPos_opposite_nextPos (d : Direction) (p : Pos) : nextPos d.opposite (nextPos d p) = p := by
  cases d <;> revert p <;> decide

theorem posAfter_succ (d : Direction) (n : Nat) (p : Pos) :
    posAfter d (n + 1) p = nextPos d (posAfter d n p) := by
  induction n generalizing p with
  | zero => rfl
  | succ n ih => exact ih (nextPos d p)

theorem posAfter_clockwise (n : Nat) (p : Pos) :
    posAfter .clockwise n p = p + BitVec.ofNat 3 n := by
  induction n with
  | zero => simp [posAfter]
  | succ n ih => rw [posAfter_succ, nextPos_clockwise, ih, BitVec.ofNat_add, BitVec.add_assoc]; rfl

theorem posAfter_counterClockwise (n : Nat) (p : Pos) :
    posAfter .counterClockwise n p = p - BitVec.ofNat 3 n := by
  induction n with
  | zero => simp [posAfter]
  | succ n ih =>
    rw [posAfter_succ, nextPos_counterClockwise, ih, BitVec.ofNat_add]
    generalize BitVec.ofNat 3 n = k
    change p - k - 1#3 = p - (k + 1#3)
    clear ih; revert p k; decide

end Sys2Proof.Machine
end

