-- ==== Sys2Proof/Laws/PerInstr.lean ====
section
/-! SUPPORT. A statement about every operation as syntax, one lemma per constructor. -/

namespace Sys2Proof.Laws.RoundTrip

/-- The canonical word of a well-formed operation is read back from its number, and is canonical (R64). -/
def Statement (i : Instr) : Prop :=
  i.wf = true ∧ decodeTableWord 4 (encode i).toNat = some i ∧ isCanonical (encode i) = true

theorem reset : Statement .reset := ⟨rfl, rfl, rfl⟩
theorem off : Statement .off := ⟨rfl, rfl, rfl⟩
theorem stepCw : Statement .stepCw := ⟨rfl, rfl, rfl⟩
theorem stepCcw : Statement .stepCcw := ⟨rfl, rfl, rfl⟩
theorem hold : Statement .hold := ⟨rfl, rfl, rfl⟩

end Sys2Proof.Laws.RoundTrip
end

