-- ==== Sys2Proof/Laws/Ports.lean ====
section
/-! SUPPORT. The outputs and the conditions on the latch, read off the registers. -/

namespace Sys2Proof.Machine

@[simp] theorem State.coil_eq_q (s : State) : s.coil = s.q := rfl

@[simp] theorem State.posPort_eq_pos (s : State) : s.posPort = s.pos := rfl

theorem State.coilLevel_eq (s : State) (i : Fin 4) : s.coilLevel i = levelOfBit (s.q.getLsbD i) := rfl

@[simp] theorem State.idle_iff (s : State) : s.idle = true ↔ s.q = 0b0000 := by
  simp [State.idle]

@[simp] theorem State.energized_iff (s : State) : s.energized = true ↔ s.q ≠ 0b0000 := by
  simp [State.energized]

end Sys2Proof.Machine
end

