-- ==== Sys2Proof/Laws/Step.lean ====
section
/-! SUPPORT. What one step does, and how a run over control words is taken apart. -/

namespace Sys2Proof.Machine

/-- Everything one step can do: it completes, with the effect of the operation its control word
selects. -/
theorem step_eq_effect (s : State) : step s = .next (effect (decode s.ctl) s.passEdge) :=
  exec_eq_effect _ _

/-- The state after one edge with the control word `w`, the host's list left alone. -/
def edgeWith (w : Ctl) (s : State) : State := { effect (decode w) s with edge := s.edge + 1 }

theorem step_present_cons (w : Ctl) (ws : List Ctl) (s : State) :
    step (s.present (w :: ws)) = .next ((edgeWith w s).present ws) := by
  rw [step_eq_effect, State.ctl_present_cons]
  unfold edgeWith
  cases decode w <;> rfl

@[simp] theorem edgeWith_ctlIn (w : Ctl) (s : State) : (edgeWith w s).ctlIn = s.ctlIn := by
  simp [edgeWith]

@[simp] theorem edgeWith_stream (w : Ctl) (s : State) : (edgeWith w s).stream = s.stream := by
  simp [edgeWith]

@[simp] theorem edgeWith_edge (w : Ctl) (s : State) : (edgeWith w s).edge = s.edge + 1 := rfl

@[simp] theorem edgeWith_pos (w : Ctl) (s : State) :
    (edgeWith w s).pos = (effect (decode w) s).pos := rfl

@[simp] theorem edgeWith_q (w : Ctl) (s : State) : (edgeWith w s).q = (effect (decode w) s).q := rfl

@[simp] theorem runWords_nil (s : State) : runWords [] s = .next s := rfl

@[simp] theorem runWords_cons (w : Ctl) (ws : List Ctl) (s : State) :
    runWords (w :: ws) s = runWords ws (edgeWith w s) := by
  have h : Sys2Proof.core.step (s.present (w :: ws)) = .next ((edgeWith w s).present ws) :=
    step_present_cons w ws s
  simp only [runWords, List.length_cons, Host.Core.run]
  rw [h]

/-- The state a run over control words leaves. -/
def afterWords : List Ctl → State → State
  | [], s => s
  | w :: ws, s => afterWords ws (edgeWith w s)

theorem runWords_eq (ws : List Ctl) (s : State) : runWords ws s = .next (afterWords ws s) := by
  induction ws generalizing s with
  | nil => rfl
  | cons w ws ih => rw [runWords_cons, ih]; rfl

theorem afterWords_append (ws vs : List Ctl) (s : State) :
    afterWords (ws ++ vs) s = afterWords vs (afterWords ws s) := by
  induction ws generalizing s with
  | nil => rfl
  | cons w ws ih => exact ih _

@[simp] theorem afterWords_ctlIn (ws : List Ctl) (s : State) : (afterWords ws s).ctlIn = s.ctlIn := by
  induction ws generalizing s with
  | nil => rfl
  | cons w ws ih => simp [afterWords, ih]

@[simp] theorem afterWords_stream (ws : List Ctl) (s : State) :
    (afterWords ws s).stream = s.stream := by
  induction ws generalizing s with
  | nil => rfl
  | cons w ws ih => simp [afterWords, ih]

@[simp] theorem afterWords_edge (ws : List Ctl) (s : State) :
    (afterWords ws s).edge = s.edge + ws.length := by
  induction ws generalizing s with
  | nil => rfl
  | cons w ws ih => simp [afterWords, ih]; omega

@[simp] theorem coilTrace_nil (s : State) : coilTrace [] s = [] := rfl

@[simp] theorem coilTrace_cons (w : Ctl) (ws : List Ctl) (s : State) :
    coilTrace (w :: ws) s = (edgeWith w s).q :: coilTrace ws (edgeWith w s) := by
  simp only [coilTrace, List.length_cons, trace]
  rw [step_present_cons]
  rfl

theorem coilTrace_append (ws vs : List Ctl) (s : State) :
    coilTrace (ws ++ vs) s = coilTrace ws s ++ coilTrace vs (afterWords ws s) := by
  induction ws generalizing s with
  | nil => rfl
  | cons w ws ih => simp [afterWords, ih]

end Sys2Proof.Machine
end

