-- ==== Sys2Proof/Tests/Slice0.lean ====
section
/-! SUPPORT. The model's own tests. Expected results are the spec's tables and vectors
(30_encoding.md, 95_test_vectors.md), named in each comment; the last part gives, for each obligation
with hypotheses, values that meet them. -/

namespace Sys2Proof.Tests

open Sys2Proof Sys2Proof.Machine

/-- A small state: the two registers and the words to come. -/
def block (p : Pos) (v : Pattern) (ws : List Ctl) : State :=
  { State.reset with pos := p, q := v, ctlIn := ws }

/-- The registers of a next state. -/
def registers : Host.Outcome State Fault Refusal → Option (Pos × Pattern)
  | .next t => some (t.pos, t.q)
  | .fault _ => none
  | .refused _ => none

/-! ### Decoding: words written out from the patterns of R63 -/

theorem test_decode_reset : decode 0b1000 = .reset ∧ decode 0b1111 = .reset := by decide
theorem test_decode_off : decode 0b0100 = .off ∧ decode 0b0111 = .off := by decide
theorem test_decode_stepCw : decode 0b0010 = .stepCw := by decide
theorem test_decode_stepCcw : decode 0b0011 = .stepCcw := by decide
theorem test_decode_hold : decode 0b0000 = .hold ∧ decode 0b0001 = .hold := by decide

theorem test_decode_number_rejects_five_bits :
    decodeTableWord 8 0b10010 = none ∧ decodeTableWord 8 0b0010 = some .stepCw := by decide

theorem test_pack_puts_rst_on_top :
    packCtl true false false false = 0b1000 ∧ packCtl false false false true = 0b0001 := by decide

/-! ### One step: at most two vectors an operation (95_test_vectors.md part 2) -/

/-- VS8. -/
theorem test_stepCw_wraps_up :
    registers (step (block 7 0xF [0b0010])) = some (0, 0x9) := by decide
/-- VD3. -/
theorem test_stepCw_reads_old_position :
    registers (step (block 5 0xA [0b0010])) = some (6, 0x3) := by decide
/-- VS9. -/
theorem test_stepCcw_wraps_down :
    registers (step (block 0 0xF [0b0011])) = some (7, 0x8) := by decide
/-- VS18. -/
theorem test_stepCcw_from_idle_latch :
    registers (step (block 4 0x0 [0b0011])) = some (3, 0x2) := by decide
/-- VI1. -/
theorem test_off_keeps_position :
    registers (step (block 0 0x9 [0b0100])) = some (0, 0x0) := by decide
/-- VI4. -/
theorem test_off_wins_over_step :
    registers (step (block 7 0x1 [0b0111])) = some (7, 0x0) := by decide
/-- VI6. -/
theorem test_hold_ignores_dir :
    registers (step (block 5 0x3 [0b0001])) = some (5, 0x3) := by decide
/-- VI8. -/
theorem test_reset_from_power_up :
    registers (step (State.powerUp 6 0xF |>.present [0b1000])) = some (0, 0x0) := by decide
/-- VI10. -/
theorem test_reset_wins_over_all :
    registers (step (block 4 0x6 [0b1110])) = some (0, 0x0) := by decide

/-- A placed word is the next one to run, before the words already listed. -/
theorem test_withFetchWord_runs_next :
    registers (step ((block 3 0x0 [0b1000]).withFetchWord 8 0b0010)) = some (4, 0x6) := by decide

/-- R160, D21: two blocks just reset, at one edge number, sample the words of two different hosts. -/
theorem test_two_blocks_have_two_hosts :
    (State.reset.drivenBy 0).ctl = Config.hostCtl 0 0 ∧
    (State.reset.drivenBy 1).ctl = Config.hostCtl 1 0 := ⟨rfl, rfl⟩

/-- R160: an edge of the second block runs its own word and leaves the first as it was. -/
theorem test_stepAt_runs_its_own_word :
    (match stepAt [block 3 0x4 [0b1000], block 5 0xA [0b0010]] 1 with
      | .next b => b.map fun s => (s.pos, s.q, s.ctlIn)
      | .fault _ => []
      | .refused _ => []) = [(3, 0x4, [0b1000]), (6, 0x3, [])] := by decide

/-! ### ROM, names and the host's arithmetic -/

/-- VM1. -/
theorem test_rom_words :
    [(0 : Pos), 1, 2, 3, 4, 5, 6, 7].map memRead =
      [0x8, 0xC, 0x4, 0x6, 0x2, 0x3, 0x1, 0x9] := by decide

/-- S9. -/
theorem test_host_constants :
    Config.stepsPerRev = 4096 ∧ Config.defaultSteps = 1024 ∧ romPasses 1024 = 128 := by decide

/-- S10: about 1.2 ms is applied as 1 ms; below one millisecond as 0 (C6). -/
theorem test_applied_delay_truncates :
    appliedDelayMs ⟨10, 12, 1⟩ = Config.defaultDelayMs ∧ appliedDelayMs ⟨10, 9, 1⟩ = 0 := by decide

/-- R183: 1024 half-steps of 1 ms. -/
theorem test_rotate_duration : rotateDelayMs ⟨10, 12, 1⟩ 1024 = 1024 := by decide

/-- R184: a quarter turn. -/
theorem test_shaft_quarter_turn : shaftRevolutions 1024 = 1 / 4 := by
  norm_num [shaftRevolutions, Config.stepsPerRev, Config.internalHalfSteps, Config.gearReduction]

/-- VR9: a ROTATE of five cancelled after three. -/
theorem test_cancelled_words :
    cancelledWords .clockwise [0, 0, 0, 0, 0] 3 = [0b0010, 0b0010, 0b0010, 0b0100] := by decide

/-- VR2, the first half: the coils of three STEPs from 6 and an OFF. -/
theorem test_coil_trace_through_the_wrap :
    coilTrace (rotateWords .clockwise [0, 0, 0]) (block 6 0x0 []) = [0x1, 0x9, 0x8, 0x0] := by
  decide

/-- S1 for the software reference. -/
theorem test_software_wraps :
    (Software.advance .clockwise ⟨7, #v[.inactive, .inactive, .inactive, .inactive]⟩).position = 0 ∧
    (Software.advance .counterClockwise
      ⟨0, #v[.inactive, .inactive, .inactive, .inactive]⟩).position = 7 := by decide

/-- A low-active platform, one coil Active (R11, R46). -/
theorem test_platform_drive :
    platformDrive ⟨#v[10, 11, 12, 13], #v[.blue, .pink, .yellow, .orange], false⟩ (block 0 0x8 []) =
      [(10, true), (11, true), (12, true), (13, false)] := by decide

/-! ### The checks of WellFormed, each with a term it refuses -/

theorem test_wf_every_operation :
    [Instr.reset, .off, .stepCw, .stepCcw, .hold].all Instr.wf = true := by decide

theorem test_wf_timing_accepts : Timing.wf ⟨10, 12, 1⟩ = true := by decide
theorem test_wf_timing_refuses_zero_speed : Timing.wf ⟨10, 0, 1⟩ = false := by decide
theorem test_wf_timing_refuses_whole_ms_tick : Timing.wf ⟨1, 12, 1⟩ = false := by decide
theorem test_wf_timing_refuses_zero_clock : Timing.wf ⟨10, 12, 0⟩ = false := by decide

theorem test_wf_platform_accepts :
    Platform.wf ⟨#v[1, 2, 3, 4], #v[.blue, .pink, .yellow, .orange], true⟩ = true := by decide
theorem test_wf_platform_refuses_shared_pin :
    Platform.wf ⟨#v[1, 2, 2, 4], #v[.blue, .pink, .yellow, .orange], true⟩ = false := by decide
theorem test_wf_platform_refuses_repeated_wire :
    Platform.wf ⟨#v[1, 2, 3, 4], #v[.blue, .pink, .pink, .orange], true⟩ = false := by decide

theorem test_wf_platforms_accept_disjoint_pins :
    platformsWf [⟨#v[1, 2, 3, 4], #v[.blue, .pink, .yellow, .orange], true⟩,
      ⟨#v[5, 6, 7, 8], #v[.blue, .pink, .yellow, .orange], true⟩] = true := by decide
theorem test_wf_platforms_refuse_pin_of_two_blocks :
    platformsWf [⟨#v[1, 2, 3, 4], #v[.blue, .pink, .yellow, .orange], true⟩,
      ⟨#v[4, 5, 6, 7], #v[.blue, .pink, .yellow, .orange], true⟩] = false := by decide

theorem test_wf_rotate_accepts : RotateCall.wf ⟨10, 12, 5⟩ ⟨.clockwise, 2, [2, 3]⟩ = true := by decide
theorem test_wf_rotate_refuses_wrong_count :
    RotateCall.wf ⟨10, 12, 5⟩ ⟨.clockwise, 2, [2]⟩ = false := by decide
theorem test_wf_rotate_refuses_short_gap :
    RotateCall.wf ⟨10, 12, 5⟩ ⟨.clockwise, 2, [2, 1]⟩ = false := by decide

/-! ### Witnesses: for each obligation with hypotheses, values that meet them -/

theorem witness_OpcodeMapSelectsEachWordOnce :
    (⟨.off, 0b1100, 0b0100⟩ : OpcodeRow) ∈ opcodeMap ∧
    OpcodeRow.selects ⟨.off, 0b1100, 0b0100⟩ 0b0111 = true := by decide

theorem witness_AssembledProgramsRunAsTheirOperations :
    0b0100 ∈ (Program.rotateN .clockwise 2 1).assemble := by decide

theorem witness_StepRunsTheSampledOperation :
    (block 3 0x4 [0b0010, 0b0100]).ctlIn = 0b0010 :: [0b0100] ∧ (block 3 0x4 []).ctlIn = [] ∧
    0 < 16 ∧ 15 < 16 := by decide

theorem witness_OnlyNamedOperationsChangeRegisters :
    (∃ t, step (block 7 0x1 [0b0010]) = .next t ∧ t.pos ≠ 7) ∧
    (∃ t, step (block 0 0x0 [0b0011]) = .next t ∧ t.energized = true) ∧
    (∃ t, step (block 0 0x9 [0b0100]) = .next t ∧ t.idle = true) ∧
    ∃ t, step (block 5 0xA [0b0001]) = .next t ∧ decode (block 5 0xA [0b0001]).ctl = .hold :=
  ⟨⟨_, rfl, by decide⟩, ⟨_, rfl, by decide⟩, ⟨_, rfl, by decide⟩, ⟨_, rfl, by decide⟩⟩

theorem witness_OffClearsLatchKeepsPosition :
    ∃ t, exec .off (block 7 0x9 []) = .next t ∧ (block 7 0x9 []).q ≠ 0b0000 ∧ t.q = 0b0000 :=
  ⟨_, rfl, by decide, by decide⟩

theorem witness_HoldChangesNothing : (0b0000 : Ctl) ≠ 0b0001 := by decide

theorem witness_ResetClearsBothRegisters :
    (0b1000 : Ctl) ≤ 0b1000 ∧ (0b1000 : Ctl) ≤ 0b1111 := by decide

theorem witness_ResetHoldsWhileRstStaysOne :
    [(0b1000 : Ctl), 0b1111] ≠ [] ∧ ∀ w ∈ [(0b1000 : Ctl), 0b1111], w.getLsbD 3 = true := by decide

theorem witness_NextPosWrapsAndInverts : 1 ≤ (1 : Pos).toNat ∧ 1 ≤ (7 : Pos).toNat := by decide

theorem witness_PositionCountsNetSteps :
    ∀ w ∈ [(0b0010 : Ctl), 0b0111, 0b0011, 0b0001], decode w ≠ .reset := by decide

theorem witness_RoundTripReturnsThePosition :
    (∀ w ∈ [(0b0010 : Ctl), 0b0100, 0b0000, 0b0011], decode w ≠ .reset) ∧
    ([(0b0010 : Ctl), 0b0100, 0b0000, 0b0011].map decode).count .stepCw =
      ([(0b0010 : Ctl), 0b0100, 0b0000, 0b0011].map decode).count .stepCcw := by decide

theorem witness_PositionPersistsUntilReset :
    ∀ w ∈ [(0b0001 : Ctl), 0b0111], decode w = .hold ∨ decode w = .off := by decide

theorem witness_RomWordsAlternateAndOverlap :
    (1 : Pos).toNat % 2 = 1 ∧ (7 : Pos).toNat % 2 = 1 ∧ (0 : Fin 4) ≠ 3 := by decide

theorem witness_CoilNamesFollowTheExcitationOrder : (block 1 0x0 []).pos = 1 := by decide

theorem witness_EveryStepKeepsTheLatchTrailing :
    (block 0 0x9 [0b0001]).latchTrails ∧ (∃ t, step (block 0 0x9 [0b0001]) = .next t) ∧
    Instr.stepCw ≠ .hold :=
  ⟨.inr (.inl (by decide)), ⟨_, rfl⟩, by decide⟩

theorem witness_LatchLegalOnceWritten :
    ∃ w ∈ [(0b0000 : Ctl), 0b0010], decode w ≠ .hold := by decide

theorem witness_LegalLatchMakesEveryRunSafe : legalPattern (block 3 0xC []).q = true := by decide

theorem witness_OldLatchIsForgotten : ∃ w ∈ [(0b0001 : Ctl), 0b0011], decode w ≠ .hold := by decide

theorem witness_SevenBitsDetermineTheFuture :
    (block 3 0xC []).sameBlock (block 3 0xC [0b1000]) ∧ block 3 0xC [] ≠ block 3 0xC [0b1000] := by
  decide

theorem witness_HoldsNeverTimeOut :
    ∀ w ∈ [(0b0000 : Ctl), 0b0001], w = 0b0000 ∨ w = 0b0001 := by decide

theorem witness_RotateEndState : 8 ∣ [1, 2, 3, 4, 5, 6, 7, 8].length := by decide

theorem witness_QuarterTurnScenario : (List.replicate 1024 1).length = 1024 :=
  List.length_replicate

theorem witness_CancelledRotateEndState : 0 ≤ [1, 2].length ∧ 2 ≤ [1, 2].length := by decide

theorem witness_RotateDelaysOncePerHalfStep : [0, 5, 9].length = [1, 1, 1].length := by decide

theorem witness_GapIsTheLeastThatCoversTheDelay :
    0 < (⟨10, 12, 4⟩ : Timing).tClk ∧
    1 * (⟨10, 12, 4⟩ : Timing).ticksPerMs ≤ 3 * (⟨10, 12, 4⟩ : Timing).tClk := by decide

theorem witness_BlockRefinesTheSoftwareRotate :
    (∀ o ∈ [[(2 : Fin 4), 0, 3, 1], [0, 1, 2, 3]], o.Perm [0, 1, 2, 3]) ∧
    [(3 : Fin 4), 2, 1, 0].Perm [0, 1, 2, 3] ∧
    [4, 0].length = [[(2 : Fin 4), 0, 3, 1], [0, 1, 2, 3]].length ∧
    (⟨7, #v[.inactive, .active, .active, .inactive]⟩ : Software).position =
      (block 7 0xA []).pos.toFin := by decide

theorem witness_StepIsOneSoftwareIteration :
    [(3 : Fin 4), 2, 1, 0].Perm [0, 1, 2, 3] ∧
    (⟨0, #v[.inactive, .active, .active, .inactive]⟩ : Software).position =
      (block 0 0xA []).pos.toFin := by decide

theorem witness_BlocksShareNoState :
    ([block 0 0x0 [], block 5 0x3 [0b0010]] : Bank).length = 2 ∧ (0 : Nat) ≠ (1 : Fin 2).val ∧
    (block 0 0x0 []).ctlIn = [] ∧ (block 5 0x3 [0b0010]).ctlIn = 0b0010 :: [] := by decide

end Sys2Proof.Tests
end

/-! ### The registers: reset values, persistence and outputs (10_state.md) -/

section
namespace Sys2Proof.Machine

@[simp] theorem effect_reset_pos (s : State) : (effect .reset s).pos = 0 := rfl

@[simp] theorem effect_reset_q (s : State) : (effect .reset s).q = 0b0000 := rfl

/-- HOLD and OFF write no position (R100, R102). -/
theorem effect_pos_of_hold_or_off {i : Instr} (h : i = .hold ∨ i = .off) (s : State) :
    (effect i s).pos = s.pos := by
  obtain rfl | rfl := h <;> rfl

theorem afterWords_pos_of_hold_or_off {ws : List Ctl}
    (h : ∀ w ∈ ws, decode w = .hold ∨ decode w = .off) (s : State) :
    (afterWords ws s).pos = s.pos := by
  induction ws generalizing s with
  | nil => rfl
  | cons w ws ih =>
    obtain ⟨hw, hws⟩ := List.forall_mem_cons.mp h
    calc (afterWords ws (edgeWith w s)).pos
        = (edgeWith w s).pos := ih hws _
      _ = s.pos := effect_pos_of_hold_or_off hw s

/-- A wait of any length is all HOLD. -/
theorem decode_of_mem_replicate_zero {n : Nat} {w : Ctl} (h : w ∈ List.replicate n 0b0000) :
    decode w = .hold := by
  rw [List.eq_of_mem_replicate h]
  rfl

theorem State.coilLevel_of_idle {s : State} (h : s.q = 0b0000) (i : Fin 4) :
    s.coilLevel i = .inactive := by
  simp [State.coilLevel_eq, h, levelOfBit]

/-- Settles O16: the effect of RESET overwrites both registers, and a step with `0b1000` presented has
that effect. -/
theorem resetValuesAsStated : Obligations.ResetValuesAsStated := by
  refine ⟨rfl, rfl, fun s => ?_, fun p v => ?_⟩
  · exact ⟨_, exec_eq_effect .reset s, effect_reset_pos s, effect_reset_q s,
      State.coilLevel_of_idle (effect_reset_q s)⟩
  · exact ⟨_, step_present_cons 0b1000 [] (State.powerUp p v),
      effect_reset_pos (State.powerUp p v), effect_reset_q (State.powerUp p v)⟩

/-- Settles O28: the ports read the registers alone, and the words after the sampled one stay in the
host's list, which no port reads. -/
theorem outputsAreTheRegisters : Obligations.OutputsAreTheRegisters := by
  intro s ws
  refine ⟨State.coil_eq_q _, State.posPort_eq_pos _, State.coilLevel_eq _, fun w ws' => ?_⟩
  exact ⟨_, _, step_present_cons w ws s, step_present_cons w ws' s, by simp, by simp⟩

/-- Settles O22: words that decode to HOLD or OFF keep the position, by induction on the words; the
HOLDs after a ROTATE are such words, run from the state it leaves. -/
theorem positionPersistsUntilReset : Obligations.PositionPersistsUntilReset := by
  refine ⟨fun ws s h => ?_, fun d gaps n s => ?_, fun s => ?_, fun p => ?_⟩
  · exact ⟨_, runWords_eq ws s, afterWords_pos_of_hold_or_off h s⟩
  · refine ⟨_, _, runWords_eq _ s, runWords_eq _ s, ?_⟩
    rw [afterWords_append]
    exact afterWords_pos_of_hold_or_off (fun w hw => .inl (decode_of_mem_replicate_zero hw)) _
  · exact ⟨_, exec_eq_effect .reset s, effect_reset_pos s⟩
  · exact ⟨0b0000, rfl⟩

end Sys2Proof.Machine
end

/-! ### The excitation ROM (20_memory.md) -/

section
namespace Sys2Proof.Machine

/-- A STEP in either direction is the half-step in that direction (R68, R83, R84). -/
@[simp] theorem effect_stepOp (d : Direction) (s : State) : effect (stepOp d) s = halfStep d s := by
  cases d <;> rfl

/-- Word by word the ROM is the source's table, cut to the four bits that stand for coils (R42). -/
theorem memRead_setWidth_eq_sourceWord (k : Pos) :
    (memRead k).setWidth 8 = sourceWord k.toFin := by
  revert k; decide

/-- Settles O24: the ROM's words are read off its definition, and a STEP, as a half-step, loads the
word at the position before it, which is the source's literal there. -/
theorem romHoldsTheEightWords : Obligations.RomHoldsTheEightWords := by
  refine ⟨rfl, rfl, rfl, rfl, rfl, rfl, rfl, rfl, fun d s => ?_⟩
  refine ⟨effect (stepOp d) s, exec_eq_effect (stepOp d) s, ?_⟩
  rw [effect_stepOp, halfStep_q]
  exact memRead_setWidth_eq_sourceWord s.pos

end Sys2Proof.Machine
end

/-! ### The control word: fields, opcode map, canonical words and pseudo-operations (30_encoding.md) -/

section
namespace Sys2Proof

@[simp] theorem ctlRst_packCtl (rst off stp dir : Bool) : ctlRst (packCtl rst off stp dir) = rst := by
  revert rst off stp dir; decide

@[simp] theorem ctlOff_packCtl (rst off stp dir : Bool) : ctlOff (packCtl rst off stp dir) = off := by
  revert rst off stp dir; decide

@[simp] theorem ctlStep_packCtl (rst off stp dir : Bool) : ctlStep (packCtl rst off stp dir) = stp := by
  revert rst off stp dir; decide

@[simp] theorem ctlDir_packCtl (rst off stp dir : Bool) : ctlDir (packCtl rst off stp dir) = dir := by
  revert rst off stp dir; decide

theorem packCtl_fields (w : Ctl) : packCtl (ctlRst w) (ctlOff w) (ctlStep w) (ctlDir w) = w := by
  revert w; decide

theorem stepOp_directionOfBit (dir : Bool) :
    stepOp (directionOfBit dir) = if dir then .stepCcw else .stepCw := by
  cases dir <;> rfl

/-- The priority chain of R62, on the four bits. -/
theorem decode_packCtl (rst off stp dir : Bool) :
    decode (packCtl rst off stp dir) =
      if rst then .reset else if off then .off
      else if stp then (if dir then .stepCcw else .stepCw) else .hold := by
  simp only [decode, ctlRst_packCtl, ctlOff_packCtl, ctlStep_packCtl, ctlDir_packCtl,
    stepOp_directionOfBit]

@[simp] theorem decode_encode (i : Instr) : decode (encode i) = i := by
  cases i <;> rfl

theorem encode_stepOp (d : Direction) :
    encode (stepOp d) = if d = .clockwise then 0b0010 else 0b0011 := by
  cases d <;> rfl

/-- The row of the opcode map for an operation (R63). -/
def rowOf : Instr → OpcodeRow
  | .reset => ⟨.reset, 0b1000, 0b1000⟩
  | .off => ⟨.off, 0b1100, 0b0100⟩
  | .stepCw => ⟨.stepCw, 0b1111, 0b0010⟩
  | .stepCcw => ⟨.stepCcw, 0b1111, 0b0011⟩
  | .hold => ⟨.hold, 0b1110, 0b0000⟩

theorem rowOf_mem_opcodeMap (i : Instr) : rowOf i ∈ opcodeMap := by
  cases i <;> decide

/-- The map has one row an operation: a row is known by its operation. -/
theorem eq_rowOf_of_mem_opcodeMap {r : OpcodeRow} (h : r ∈ opcodeMap) : r = rowOf r.op := by
  revert r; decide

/-- Masking with the row of an operation tells exactly the words that decode to it. -/
theorem decode_eq_iff (w : Ctl) (i : Instr) :
    decode w = i ↔ w &&& (rowOf i).mask = (rowOf i).pattern := by
  revert w; cases i <;> decide

theorem rowOf_selects_iff (w : Ctl) (i : Instr) : (rowOf i).selects w = true ↔ decode w = i := by
  rw [decode_eq_iff, OpcodeRow.selects, beq_iff_eq]

/-- A row of the map selects the words that decode to its operation, and no others. -/
theorem selects_iff_of_mem_opcodeMap {r : OpcodeRow} (h : r ∈ opcodeMap) (w : Ctl) :
    r.selects w = true ↔ decode w = r.op := by
  rw [← rowOf_selects_iff, ← eq_rowOf_of_mem_opcodeMap h]

/-- The rows are disjoint and cover every word: the selecting row is that of the decoded operation. -/
theorem existsUnique_selecting_row (w : Ctl) : ∃! r, r ∈ opcodeMap ∧ r.selects w = true := by
  refine ⟨rowOf (decode w), ⟨rowOf_mem_opcodeMap _, (rowOf_selects_iff w _).mpr rfl⟩, ?_⟩
  rintro r ⟨hr, hw⟩
  rw [(selects_iff_of_mem_opcodeMap hr w).mp hw]
  exact eq_rowOf_of_mem_opcodeMap hr

end Sys2Proof

namespace Sys2Proof.Machine

/-- A step with one word presented is that word's operation, the edge passed. -/
theorem step_present_singleton (w : Ctl) (s : State) :
    step (s.present [w]) = exec (decode w) { s with edge := s.edge + 1 } := rfl

/-- Settles O1: each field of a packed word is the bit put in, so the decoder's chain is the chain on
the bits, and the step with that word presented is the operation decoded. -/
theorem controlWordDecodesByPriority : Obligations.ControlWordDecodesByPriority := by
  refine ⟨fun rst off stp dir s => ⟨decode_packCtl rst off stp dir, ?_⟩, packCtl_fields⟩
  rw [step_present_singleton, decode_packCtl]

/-- Settles O2: the row of an operation selects exactly the words that decode to it. -/
theorem opcodeMapSelectsEachWordOnce : Obligations.OpcodeMapSelectsEachWordOnce := by
  intro w
  refine ⟨decode_eq_iff w .reset, decode_eq_iff w .off, decode_eq_iff w .stepCw,
    decode_eq_iff w .stepCcw, decode_eq_iff w .hold, existsUnique_selecting_row w,
    fun r hr hw s => ?_⟩
  rw [step_present_singleton, (selects_iff_of_mem_opcodeMap hr w).mp hw]

/-- Settles O3: a step sees of a presented word only the operation it decodes to, which the canonical
word of that operation decodes to as well. -/
theorem canonicalWordsRoundTrip : Obligations.CanonicalWordsRoundTrip := by
  refine ⟨rfl, rfl, rfl, rfl, rfl, decode_encode, fun w s => ?_⟩
  rw [step_present_singleton, step_present_singleton, decode_encode]

/-! The words of the pseudo-operations, in the terms of the host's ROTATE (R69, R120). -/

theorem map_repeated {α β : Type} (f : α → β) (n : Nat) (lines : List α) :
    (repeated n lines).map f = repeated n (lines.map f) := by
  simp [repeated]

theorem map_encode_waitOps (n : Nat) : (waitOps n).map encode = gapWords n := by
  simp [waitOps, repeated, gapWords]

theorem map_encode_halfStepOps (d : Direction) (g : Nat) :
    (halfStepOps d g).map encode = encode (stepOp d) :: gapWords g := by
  simp [halfStepOps, map_encode_waitOps]

theorem map_encode_rotateOps (d : Direction) (n g : Nat) :
    (rotateOps d n g).map encode =
      repeated n (encode (stepOp d) :: gapWords g) ++ [encode .off] := by
  simp [rotateOps, map_repeated, map_encode_halfStepOps]

/-- The loop with `n` equal gaps repeats one half-step `n` times. -/
theorem rotateLoop_replicate (d : Direction) (n g : Nat) :
    rotateLoop d (List.replicate n g) = repeated n (encode (stepOp d) :: gapWords g) := by
  induction n with
  | zero => rfl
  | succ n ih => simp [List.replicate_succ, rotateLoop, ih, repeated]

theorem rotateN_assemble_eq_rotateWords (d : Direction) (n g : Nat) :
    (Program.rotateN d n g).assemble = rotateWords d (List.replicate n g) := by
  rw [rotateWords, rotateLoop_replicate]
  exact map_encode_rotateOps d n g

/-! The registers after the host's ROTATE, whatever the gaps (R126). -/

@[simp] theorem afterWords_gapWords_pos (g : Nat) (s : State) :
    (afterWords (gapWords g) s).pos = s.pos :=
  afterWords_pos_of_hold_or_off (fun _ hw => .inl (decode_of_mem_replicate_zero hw)) s

/-- Each iteration moves the position by one half-step, and its gap leaves it. -/
theorem afterWords_rotateLoop_pos (d : Direction) (gaps : List Nat) (s : State) :
    (afterWords (rotateLoop d gaps) s).pos = posAfter d gaps.length s.pos := by
  induction gaps generalizing s with
  | nil => rfl
  | cons g gs ih => simp [rotateLoop, afterWords, afterWords_append, ih, posAfter]

theorem afterWords_rotateWords_pos (d : Direction) (gaps : List Nat) (s : State) :
    (afterWords (rotateWords d gaps) s).pos = posAfter d gaps.length s.pos := by
  rw [rotateWords, afterWords_append, ← afterWords_rotateLoop_pos]
  rfl

/-- The closing OFF leaves the latch clear. -/
theorem afterWords_rotateWords_q (d : Direction) (gaps : List Nat) (s : State) :
    (afterWords (rotateWords d gaps) s).q = 0b0000 := by
  rw [rotateWords, afterWords_append]
  rfl

/-- The end registers of a ROTATE depend on the number of gaps only. -/
theorem afterWords_rotateWords_sameBlock (d : Direction) {gaps gaps' : List Nat}
    (h : gaps.length = gaps'.length) (s : State) :
    (afterWords (rotateWords d gaps) s).sameBlock (afterWords (rotateWords d gaps') s) := by
  simp only [State.sameBlock, afterWords_rotateWords_pos, afterWords_rotateWords_q, h, and_self]

/-- Settles O5: encoding turns each expansion into its words line by line; ROTATE.N's words are the
host's ROTATE with equal gaps, and a ROTATE ends with registers that do not depend on its gaps. -/
theorem pseudoOperationsAssembleAsWritten : Obligations.PseudoOperationsAssembleAsWritten := by
  intro d n g
  rw [← encode_stepOp d]
  refine ⟨map_encode_waitOps n, map_encode_halfStepOps d g,
    map_encode_rotateOps d 1024 g, map_encode_rotateOps d 4096 g, map_encode_rotateOps d n g,
    rotateN_assemble_eq_rotateWords d n g, fun g' s => ?_⟩
  refine ⟨_, _, runWords_eq _ s, runWords_eq _ s, ?_⟩
  rw [rotateN_assemble_eq_rotateWords, rotateN_assemble_eq_rotateWords]
  exact afterWords_rotateWords_sameBlock d (by simp) s

end Sys2Proof.Machine
end

/-! ### The half-step operations and the position (40_step.md) -/

section
namespace Sys2Proof

@[simp] theorem Direction.opposite_opposite (d : Direction) : d.opposite.opposite = d := by
  cases d <;> rfl

end Sys2Proof

namespace Sys2Proof.Machine

/-! NextPos as a function of the direction (R81). -/

theorem nextPos_nextPos_opposite (d : Direction) (p : Pos) :
    nextPos d (nextPos d.opposite p) = p := by
  simpa using nextPos_opposite_nextPos d.opposite p

theorem nextPos_bijective (d : Direction) : Function.Bijective (nextPos d) :=
  Function.bijective_iff_has_inverse.mpr
    ⟨nextPos d.opposite, nextPos_opposite_nextPos d, nextPos_nextPos_opposite d⟩

theorem nextPos_clockwise_toNat (p : Pos) :
    (nextPos .clockwise p).toNat = (p.toNat + 1) % 8 := by
  rw [nextPos_clockwise, BitVec.toNat_add]
  rfl

theorem nextPos_counterClockwise_toNat (p : Pos) :
    (nextPos .counterClockwise p).toNat = (p.toNat + 7) % 8 := by
  rw [nextPos_counterClockwise, BitVec.toNat_sub, Nat.add_comm]
  rfl

/-- The two STEPs from one position part: they lead to places that differ by two. -/
theorem nextPos_clockwise_ne_counterClockwise (p : Pos) :
    nextPos .clockwise p ≠ nextPos .counterClockwise p := by
  revert p; decide

/-! STEP in either direction (R83, R84). -/

/-- STEP has no ignored bit: its canonical word is its only word (R63). -/
theorem decode_eq_stepOp_iff (d : Direction) (w : Ctl) :
    decode w = stepOp d ↔ w = encode (stepOp d) := by
  revert w; cases d <;> decide

/-- The whole next state of a STEP. -/
theorem exec_stepOp (d : Direction) (s : State) :
    exec (stepOp d) s = .next { s with q := memRead s.pos, pos := nextPos d s.pos } := by
  cases d <;> rfl

/-- A STEP does not read the latch. -/
theorem exec_stepOp_writeQ (d : Direction) (v : Pattern) (s : State) :
    exec (stepOp d) (s.writeQ v) = exec (stepOp d) s := by
  rw [exec_stepOp, exec_stepOp]
  rfl

/-- Settles O11: STEP.CW is the Clockwise STEP, whose word, next state and blindness to the latch
are those of either direction; the boundary and the example are that next state at one position. -/
theorem stepCwAppliesPatternThenIncrements : Obligations.StepCwAppliesPatternThenIncrements := by
  refine ⟨decode_eq_stepOp_iff .clockwise, fun s => ⟨exec_stepOp .clockwise s, ?_, ?_, ?_, ?_⟩⟩
  · exact exec_stepOp .clockwise { s with pos := 7 }
  · exact fun v => exec_stepOp_writeQ .clockwise v s
  · exact ⟨_, exec_stepOp .clockwise { s with q := memRead s.pos }, rfl⟩
  · exact exec_stepOp .clockwise { s with pos := 1, q := 0x0 }

/-- Settles O12: as for STEP.CW; the two STEPs load the same word, since the next state's latch does
not depend on the direction, and their next positions differ. -/
theorem stepCcwAppliesPatternThenDecrements : Obligations.StepCcwAppliesPatternThenDecrements := by
  refine ⟨decode_eq_stepOp_iff .counterClockwise,
    fun s => ⟨exec_stepOp .counterClockwise s, ?_, ?_, ?_, ?_⟩⟩
  · exact exec_stepOp .counterClockwise { s with pos := 0 }
  · exact fun v => exec_stepOp_writeQ .counterClockwise v s
  · exact ⟨_, _, exec_stepOp .clockwise s, exec_stepOp .counterClockwise s, rfl,
      nextPos_clockwise_ne_counterClockwise s.pos⟩
  · have hpos : nextPos .counterClockwise 1 = 0 := by decide
    rw [← hpos]
    exact exec_stepOp .counterClockwise { s with pos := 1, q := 0x0 }

/-- Settles O18: either direction adds its constant modulo 8 and is undone by the other, so it is a
bijection; a STEP and then the opposite STEP apply the two to the position. -/
theorem nextPosWrapsAndInverts : Obligations.NextPosWrapsAndInverts := by
  refine ⟨fun p => ⟨nextPos_clockwise_toNat p, nextPos_counterClockwise_toNat p, fun hp => ?_,
    nextPos_opposite_nextPos .clockwise p, nextPos_opposite_nextPos .counterClockwise p⟩,
    rfl, nextPos_bijective .clockwise, nextPos_bijective .counterClockwise, fun d s => ?_⟩
  · rw [nextPos_counterClockwise_toNat]
    omega
  · exact ⟨_, _, exec_stepOp d s, rfl, exec_stepOp d.opposite _, nextPos_opposite_nextPos d s.pos⟩

/-! Many STEPs in one direction (R82). -/

/-- `n` STEPs in one direction move the position by `n` places in it. -/
theorem afterWords_replicate_stepOp_pos (d : Direction) (n : Nat) (s : State) :
    (afterWords (List.replicate n (encode (stepOp d))) s).pos = posAfter d n s.pos := by
  induction n generalizing s with
  | zero => rfl
  | succ n ih => simp [List.replicate_succ, afterWords, ih, posAfter]

theorem posAfter_clockwise_toNat (n : Nat) (p : Pos) :
    ((posAfter .clockwise n p).toNat : Int) = ((p.toNat : Int) + n) % 8 := by
  rw [posAfter_clockwise, BitVec.toNat_add, BitVec.toNat_ofNat]
  omega

theorem posAfter_counterClockwise_toNat (n : Nat) (p : Pos) :
    ((posAfter .counterClockwise n p).toNat : Int) = ((p.toNat : Int) - n) % 8 := by
  rw [posAfter_counterClockwise, BitVec.toNat_sub, BitVec.toNat_ofNat]
  omega

/-- Eight places in one direction are a whole turn of the counter. -/
theorem posAfter_eight (d : Direction) (p : Pos) : posAfter d 8 p = p := by
  cases d
  case clockwise => rw [posAfter_clockwise]; exact BitVec.add_zero p
  case counterClockwise => rw [posAfter_counterClockwise]; exact BitVec.sub_zero p

/-- Each direction is one cycle: the distance from `p` to `p'` along it, a 3-bit word, reaches
`p'`. -/
theorem exists_posAfter_eq (d : Direction) (p p' : Pos) : ∃ n < 8, posAfter d n p = p' := by
  cases d
  case clockwise =>
    refine ⟨(p' - p).toNat, (p' - p).isLt, ?_⟩
    rw [posAfter_clockwise, BitVec.ofNat_toNat, BitVec.setWidth_eq, BitVec.add_comm,
      BitVec.sub_add_cancel]
  case counterClockwise =>
    refine ⟨(p - p').toNat, (p - p').isLt, ?_⟩
    rw [posAfter_counterClockwise, BitVec.ofNat_toNat, BitVec.setWidth_eq, sub_sub_cancel]

/-- Settles O19: a run of `n` equal STEPs ends at `posAfter d n`, which is arithmetic modulo 8 in
either direction; the run exists for every `n`, and the cycle is that of `posAfter`. -/
theorem stepsCycleThroughEightPositions : Obligations.StepsCycleThroughEightPositions := by
  refine ⟨fun n s => ⟨_, runWords_eq _ s, ?_⟩, fun n s => ⟨_, runWords_eq _ s, ?_⟩,
    fun d s => ⟨_, runWords_eq _ s, ?_⟩, exists_posAfter_eq⟩
  · rw [← posAfter_clockwise_toNat, ← afterWords_replicate_stepOp_pos]
    rfl
  · rw [← posAfter_counterClockwise_toNat, ← afterWords_replicate_stepOp_pos]
    rfl
  · rw [afterWords_replicate_stepOp_pos, posAfter_eight]

end Sys2Proof.Machine
end

/-! ### OFF, HOLD and RESET (41_idle_ops.md) -/

section
namespace Sys2Proof

/-! The words of the three operations, on the bits of the control word (R100, R102, R104). -/

theorem decode_eq_reset_iff (w : Ctl) : decode w = .reset ↔ w.getLsbD 3 = true := by
  revert w; decide

theorem decode_eq_off_iff (w : Ctl) :
    decode w = .off ↔ w.getLsbD 3 = false ∧ w.getLsbD 2 = true := by
  revert w; decide

theorem decode_eq_hold_iff (w : Ctl) :
    decode w = .hold ↔ w.getLsbD 3 = false ∧ w.getLsbD 2 = false ∧ w.getLsbD 1 = false := by
  revert w; decide

/-- The eight words from `0b1000` up are RESET's (R104). -/
theorem decode_eq_reset_of_le {w : Ctl} (h : 0b1000 ≤ w) : decode w = .reset := by
  revert w; decide

/-- The two words of HOLD (R102). -/
theorem decode_eq_hold_of_zero_or_one {w : Ctl} (h : w = 0b0000 ∨ w = 0b0001) :
    decode w = .hold := by
  obtain rfl | rfl := h <;> rfl

end Sys2Proof

namespace Sys2Proof.Machine

/-! One edge, by the operation its word decodes to. -/

theorem step_present_eq_edgeWith (w : Ctl) (s : State) :
    step (s.present [w]) = .next (edgeWith w s) :=
  step_present_cons w [] s

theorem edgeWith_of_decode_off {w : Ctl} (h : decode w = .off) (s : State) :
    edgeWith w s = { s with q := 0b0000, edge := s.edge + 1 } := by
  rw [edgeWith, h]
  rfl

theorem edgeWith_of_decode_hold {w : Ctl} (h : decode w = .hold) (s : State) :
    edgeWith w s = { s with edge := s.edge + 1 } := by
  rw [edgeWith, h]
  rfl

theorem edgeWith_of_decode_reset {w : Ctl} (h : decode w = .reset) (s : State) :
    edgeWith w s = { s with pos := 0, q := 0b0000, edge := s.edge + 1 } := by
  rw [edgeWith, h]
  rfl

/-- A run of HOLDs passes its edges and does nothing else (R103). -/
theorem afterWords_of_decode_hold {ws : List Ctl} (h : ∀ w ∈ ws, decode w = .hold) (s : State) :
    afterWords ws s = { s with edge := s.edge + ws.length } := by
  induction ws generalizing s with
  | nil => rfl
  | cons w ws ih =>
    obtain ⟨hw, hws⟩ := List.forall_mem_cons.mp h
    rw [afterWords, ih hws, edgeWith_of_decode_hold hw, List.length_cons, Nat.add_comm ws.length,
      ← Nat.add_assoc]

/-- A run that ends in RESET leaves the cleared registers, whatever its words before (R104). -/
theorem afterWords_append_of_decode_reset {w : Ctl} (h : decode w = .reset) (ws : List Ctl)
    (s : State) :
    afterWords (ws ++ [w]) s = { s with pos := 0, q := 0b0000, edge := s.edge + ws.length + 1 } := by
  rw [afterWords_append, afterWords, afterWords, edgeWith_of_decode_reset h, afterWords_ctlIn,
    afterWords_stream, afterWords_edge]

/-- A HOLD after a word keeps the latch that the word's operation left. -/
theorem afterWords_pair_hold_q {w : Ctl} (h : decode w = .hold) (v : Ctl) (s : State) :
    (afterWords [v, w] s).q = (effect (decode v) s).q := by
  rw [afterWords, afterWords, afterWords, edgeWith_of_decode_hold h, edgeWith_q]

/-- Every word of the ROM has an Active coil (R43). -/
theorem memRead_ne_zero (k : Pos) : memRead k ≠ 0b0000 := by
  revert k; decide

/-- Only OFF and RESET clear a latch that holds a pattern: a STEP loads a word of the ROM, and HOLD
keeps the latch. -/
theorem eq_off_or_reset_of_effect_clears {i : Instr} {s : State} (hs : s.q ≠ 0b0000)
    (h : (effect i s).q = 0b0000) : i = .off ∨ i = .reset := by
  cases i with
  | reset => exact .inr rfl
  | off => exact .inl rfl
  | stepCw => exact absurd h (memRead_ne_zero s.pos)
  | stepCcw => exact absurd h (memRead_ne_zero s.pos)
  | hold => exact absurd h hs

/-- Settles O38: either word decodes to HOLD, and a run of HOLDs passes its edges only, by induction
on the words. -/
theorem holdsNeverTimeOut : Obligations.HoldsNeverTimeOut := by
  intro ws s h
  rw [runWords_eq, afterWords_of_decode_hold fun w hw => decode_eq_hold_of_zero_or_one (h w hw)]

/-- Settles O13: OFF's effect is the cleared latch, an edge with one of its words has that effect,
`step` and `dir` whatever, and no other operation but RESET clears a latch. -/
theorem offClearsLatchKeepsPosition : Obligations.OffClearsLatchKeepsPosition := by
  refine ⟨decode_eq_off_iff, fun s => ⟨exec_eq_effect .off s, exec_eq_effect .off _, ?_, ?_,
    exec_eq_effect .off _⟩, fun i s t hst hs ht => ?_⟩
  · rw [step_present_eq_edgeWith, edgeWith_of_decode_off rfl]
  · rw [step_present_eq_edgeWith, edgeWith_of_decode_off rfl]
  · rw [eq_effect_of_exec hst] at ht
    exact eq_off_or_reset_of_effect_clears hs ht

/-- Settles O14: HOLD's effect is the state itself, so an edge with either word only passes, and a
HOLD after another word leaves the latch with that word's pattern. -/
theorem holdChangesNothing : Obligations.HoldChangesNothing := by
  refine ⟨decode_eq_hold_iff, fun s => ⟨exec_eq_effect .hold s, fun dir => ?_, fun d => ?_, ?_, ?_,
    fun w hw => ?_⟩⟩
  · rw [step_present_eq_edgeWith, edgeWith_of_decode_hold (decode_packCtl false false false dir)]
  · refine ⟨_, runWords_eq _ s, (State.energized_iff _).mpr ?_⟩
    rw [afterWords_pair_hold_q rfl, decode_encode, effect_stepOp, halfStep_q]
    exact memRead_ne_zero s.pos
  · exact ⟨_, runWords_eq _ s, (State.idle_iff _).mpr (afterWords_pair_hold_q rfl 0b0100 s)⟩
  · exact ⟨_, runWords_eq _ s, (State.idle_iff _).mpr (afterWords_pair_hold_q rfl 0b1000 s)⟩
  · rw [step_present_eq_edgeWith, edgeWith_of_decode_hold (decode_eq_hold_of_zero_or_one hw)]

/-- Settles O15: RESET's effect overwrites both registers, so what the words before it did to them
is lost, and each of its eight words has that effect. -/
theorem resetClearsBothRegisters : Obligations.ResetClearsBothRegisters := by
  refine ⟨decode_eq_reset_iff, exec_eq_effect .reset, fun ws off stp dir s => ?_,
    fun s => exec_eq_effect .reset _, fun w s hw => ?_⟩
  · rw [runWords_eq, afterWords_append_of_decode_reset (decode_packCtl true off stp dir)]
  · rw [step_present_eq_edgeWith, edgeWith_of_decode_reset (decode_eq_reset_of_le hw)]

end Sys2Proof.Machine
end

/-! ### The rotate sequence (42_rotate_sequence.md) -/

section
namespace Sys2Proof.Machine

/-! The position under STEPs of both directions, in any order (R131). -/

/-- Half-steps commute, whatever their directions. -/
theorem nextPos_comm (d e : Direction) (p : Pos) :
    nextPos d (nextPos e p) = nextPos e (nextPos d p) := by
  revert p; cases d <;> cases e <;> decide

theorem posAfter_nextPos (d e : Direction) (n : Nat) (p : Pos) :
    posAfter d n (nextPos e p) = nextPos e (posAfter d n p) := by
  induction n generalizing p with
  | zero => rfl
  | succ n ih => rw [posAfter, nextPos_comm, ih, posAfter]

theorem posAfter_opposite_posAfter (d : Direction) (n : Nat) (p : Pos) :
    posAfter d.opposite n (posAfter d n p) = p := by
  induction n generalizing p with
  | zero => rfl
  | succ n ih => rw [posAfter_succ, posAfter, ih, nextPos_opposite_nextPos]

/-- Without a RESET only the numbers of the two STEPs count, not the order of the words. -/
theorem afterWords_pos_of_no_reset {ws : List Ctl} (h : ∀ w ∈ ws, decode w ≠ .reset) (s : State) :
    (afterWords ws s).pos =
      posAfter .counterClockwise ((ws.map decode).count .stepCcw)
        (posAfter .clockwise ((ws.map decode).count .stepCw) s.pos) := by
  induction ws generalizing s with
  | nil => rfl
  | cons w ws ih =>
    obtain ⟨hw, hws⟩ := List.forall_mem_cons.mp h
    rw [afterWords, ih hws, edgeWith_pos, List.map_cons]
    cases hop : decode w with
    | reset => exact absurd hop hw
    | off => simp [effect]
    | hold => simp [effect]
    | stepCw => simp [effect, posAfter]
    | stepCcw => simp [effect, posAfter, posAfter_nextPos]

/-- Settles O21: `n` places one way are undone by `n` places the other; and in a sequence of any order
the two numbers of STEPs alone say where the position ends. -/
theorem roundTripReturnsThePosition : Obligations.RoundTripReturnsThePosition := by
  refine ⟨fun d n s => ⟨_, runWords_eq _ s, ?_⟩, fun ws s hws hcount => ⟨_, runWords_eq _ s, ?_⟩⟩
  · rw [afterWords_append, afterWords_replicate_stepOp_pos, afterWords_replicate_stepOp_pos,
      posAfter_opposite_posAfter]
  · rw [afterWords_pos_of_no_reset hws, hcount]
    exact posAfter_opposite_posAfter .clockwise _ s.pos

/-! The words of a ROTATE (R120, R122). -/

theorem rotateLoop_append (d : Direction) (gaps gaps' : List Nat) :
    rotateLoop d (gaps ++ gaps') = rotateLoop d gaps ++ rotateLoop d gaps' := by
  induction gaps with
  | nil => rfl
  | cons g gs ih => simp [rotateLoop, ih]

theorem rotateLoop_eq_flatten (d : Direction) (gaps : List Nat) :
    rotateLoop d gaps = (gaps.map fun g => encode (stepOp d) :: gapWords g).flatten := by
  induction gaps with
  | nil => rfl
  | cons g gs ih => simp [rotateLoop, ih]

theorem stepOp_ne_off (d : Direction) : stepOp d ≠ .off := by
  cases d <;> decide

theorem stepOp_ne_hold (d : Direction) : stepOp d ≠ .hold := by
  cases d <;> decide

theorem map_decode_gapWords (g : Nat) : (gapWords g).map decode = List.replicate g .hold := by
  rw [gapWords, List.map_replicate, decode_encode]

theorem count_map_decode_gapWords {i : Instr} (h : i ≠ .hold) (g : Nat) :
    ((gapWords g).map decode).count i = 0 := by
  rw [map_decode_gapWords]
  exact List.count_eq_zero_of_not_mem fun hi => h (List.eq_of_mem_replicate hi)

/-- One STEP an iteration. -/
theorem count_stepOp_rotateLoop (d : Direction) (gaps : List Nat) :
    ((rotateLoop d gaps).map decode).count (stepOp d) = gaps.length := by
  induction gaps with
  | nil => rfl
  | cons g gs ih => simp [rotateLoop, count_map_decode_gapWords (stepOp_ne_hold d), ih]

theorem count_off_rotateLoop (d : Direction) (gaps : List Nat) :
    ((rotateLoop d gaps).map decode).count .off = 0 := by
  induction gaps with
  | nil => rfl
  | cons g gs ih =>
    simp [rotateLoop, count_map_decode_gapWords, stepOp_ne_off d, ih]

theorem decode_ne_off_of_mem_rotateLoop {d : Direction} {gaps : List Nat} {w : Ctl}
    (hw : w ∈ rotateLoop d gaps) : decode w ≠ .off := fun hoff =>
  List.count_eq_zero.mp (count_off_rotateLoop d gaps) (hoff ▸ List.mem_map_of_mem hw)

theorem count_stepOp_rotateWords (d : Direction) (gaps : List Nat) :
    ((rotateWords d gaps).map decode).count (stepOp d) = gaps.length := by
  simp [rotateWords, count_stepOp_rotateLoop, (stepOp_ne_off d).symm]

/-- Settles O43: the loop holds one STEP for each gap and no OFF, so the OFF after the loop is the
only one; and a last gap is the loop's last iteration. -/
theorem rotateIssuesOneOffAfterTheLastGap : Obligations.RotateIssuesOneOffAfterTheLastGap := by
  intro d gaps
  rw [← encode_stepOp d]
  refine ⟨?_, count_stepOp_rotateWords d gaps, ?_, fun g => ?_⟩
  · rw [rotateWords, rotateLoop_eq_flatten]
    rfl
  · rw [rotateWords, List.map_append, List.count_append, count_off_rotateLoop]
    rfl
  · refine ⟨rotateLoop d gaps, fun w hw => decode_ne_off_of_mem_rotateLoop hw, ?_⟩
    simp [rotateWords, rotateLoop_append, rotateLoop, gapWords, encode]

/-! The end of a ROTATE, run to its end or cancelled (R125, R126, R134). -/

/-- Settles O48: the closing OFF clears the latch, and the HOLDs after it change no register. -/
theorem completedRotateLeavesCoilsInactive : Obligations.CompletedRotateLeavesCoilsInactive := by
  intro d gaps n s
  have hq : (afterWords (rotateWords d gaps ++ List.replicate n 0b0000) s).q = 0b0000 := by
    rw [afterWords_append, afterWords_of_decode_hold fun _ hw => decode_of_mem_replicate_zero hw]
    exact afterWords_rotateWords_q d gaps s
  exact ⟨_, runWords_eq _ s, hq, State.coilLevel_of_idle hq⟩

/-- Settles O50: a ROTATE cancelled after `m` iterations is the whole ROTATE of the first `m` gaps,
which has `m` STEPs and ends `m` places on. -/
theorem cancelledRotateEndState : Obligations.CancelledRotateEndState := by
  intro d gaps m s hm
  have hlen : (gaps.take m).length = m := List.length_take_of_le hm
  refine ⟨?_, _, runWords_eq _ s, afterWords_rotateWords_q d _ s, ?_⟩
  · rw [cancelledWords, count_stepOp_rotateWords, hlen]
  · rw [cancelledWords, afterWords_rotateWords_pos, hlen]
    cases d
    case clockwise => exact posAfter_clockwise_toNat m s.pos
    case counterClockwise => exact posAfter_counterClockwise_toNat m s.pos

/-! What the coils show during a ROTATE (R127, R136). -/

/-- Through a gap the coils keep showing the latch. -/
theorem coilTrace_gapWords (g : Nat) (s : State) :
    coilTrace (gapWords g) s = List.replicate g s.q := by
  induction g generalizing s with
  | zero => rfl
  | succ g ih =>
    rw [gapWords, List.replicate_succ, coilTrace_cons, edgeWith_of_decode_hold rfl]
    exact congrArg (s.q :: ·) (ih _)

/-- One iteration shows the word at the position before it, held through the gap. -/
theorem coilTrace_stepOp_gapWords (d : Direction) (g : Nat) (s : State) :
    coilTrace (encode (stepOp d) :: gapWords g) s = List.replicate (g + 1) (memRead s.pos) := by
  simp [coilTrace_gapWords, List.replicate_succ]

/-- The `k`-th iteration of the loop shows the word `k` places from the start. -/
theorem coilTrace_rotateLoop (d : Direction) (gaps : List Nat) (s : State) :
    coilTrace (rotateLoop d gaps) s =
      (gaps.zipIdx.map fun x =>
        List.replicate (x.1 + 1) (memRead (posAfter d x.2 s.pos))).flatten := by
  induction gaps generalizing s with
  | nil => rfl
  | cons g gs ih =>
    have hpos : (afterWords (encode (stepOp d) :: gapWords g) s).pos = nextPos d s.pos := by
      simp [afterWords]
    rw [rotateLoop, ← List.cons_append, coilTrace_append, coilTrace_stepOp_gapWords, ih, hpos,
      List.zipIdx_cons']
    simp [posAfter, Function.comp_def]

/-- The closing OFF adds one edge with all coils Inactive. -/
theorem coilTrace_rotateWords (d : Direction) (gaps : List Nat) (s : State) :
    coilTrace (rotateWords d gaps) s = coilTrace (rotateLoop d gaps) s ++ [0b0000] := by
  rw [rotateWords, coilTrace_append, coilTrace_cons, edgeWith_of_decode_off (decode_encode .off),
    coilTrace_nil]

/-- Without HOLDs, whole turns of the counter show the eight words from the start over and over. -/
theorem coilTrace_rotateLoop_turns (d : Direction) (m : Nat) (s : State) :
    coilTrace (rotateLoop d (List.replicate (8 * m) 0)) s =
      (List.replicate m ((List.range 8).map fun k => memRead (posAfter d k s.pos))).flatten := by
  induction m generalizing s with
  | zero => rfl
  | succ m ih =>
    rw [Nat.mul_succ, Nat.add_comm, ← List.replicate_append_replicate, rotateLoop_append,
      coilTrace_append, ih, afterWords_rotateLoop_pos, List.length_replicate, posAfter_eight,
      coilTrace_rotateLoop, List.replicate_succ (n := m), List.flatten_cons]
    rfl

/-- From position 0 the Clockwise position is the number of half-steps modulo 8. -/
theorem posAfter_clockwise_zero (k : Nat) : posAfter .clockwise k 0 = BitVec.ofNat 3 (k % 8) := by
  rw [posAfter_clockwise]
  exact (zero_add _).trans (BitVec.eq_of_toNat_eq (by simp))

/-- From position 0 the `k`-th Clockwise iteration shows the word of index `k` modulo 8. -/
theorem coilTrace_rotateLoop_clockwise_zero (gaps : List Nat) {s : State} (h : s.pos = 0) :
    coilTrace (rotateLoop .clockwise gaps) s =
      (gaps.zipIdx.map fun x =>
        List.replicate (x.1 + 1) (memRead (BitVec.ofNat 3 (x.2 % 8)))).flatten := by
  simp only [coilTrace_rotateLoop, h, posAfter_clockwise_zero]

/-- RESET and then a ROTATE, whatever the state before: the ROTATE starts at the cleared
registers. -/
theorem coilTrace_reset_rotateWords (d : Direction) (gaps : List Nat) (s : State) :
    coilTrace (0b1000 :: rotateWords d gaps) s =
      [0b0000] ++ coilTrace (rotateLoop d gaps) (edgeWith 0b1000 s) ++ [0b0000] := by
  rw [coilTrace_cons, coilTrace_rotateWords, edgeWith_q]
  rfl

/-- Settles O49: RESET leaves position 0 whatever the state before, so the ROTATE after it shows the
words from index 0 on; 1024 half-steps are 128 whole turns of the counter. -/
theorem quarterTurnScenario : Obligations.QuarterTurnScenario := by
  refine ⟨fun gaps s hlen => ⟨⟨_, runWords_eq _ s, ?_, afterWords_rotateWords_q _ gaps _⟩, ?_⟩,
    fun s => ?_⟩
  · calc (afterWords (rotateWords .clockwise gaps) (edgeWith 0b1000 s)).pos
        = posAfter .clockwise gaps.length 0 := afterWords_rotateWords_pos _ gaps _
      _ = 0 := by rw [posAfter_clockwise_zero, hlen]; rfl
  · rw [coilTrace_reset_rotateWords]
    exact congrArg ([0b0000] ++ · ++ [0b0000]) (coilTrace_rotateLoop_clockwise_zero gaps rfl)
  · have hturns : coilTrace (rotateLoop .clockwise (List.replicate 1024 0)) (edgeWith 0b1000 s) =
        (List.replicate 128 [0x8, 0xC, 0x4, 0x6, 0x2, 0x3, 0x1, 0x9]).flatten :=
      coilTrace_rotateLoop_turns .clockwise 128 (edgeWith 0b1000 s)
    rw [coilTrace_reset_rotateWords, hturns]

/-! A STEP and the source's table (R133). -/

/-- The ROM's word has the four low bits of the source's literal. -/
theorem sourceWord_getLsbD (k : Pos) (i : Fin 4) :
    (sourceWord k.toFin).getLsbD i = (memRead k).getLsbD i := by
  have hi : i.val < 8 := by omega
  rw [← memRead_setWidth_eq_sourceWord, BitVec.getLsbD_setWidth, decide_eq_true hi, Bool.true_and]

theorem exec_stepOp_eq_halfStep (d : Direction) (s : State) :
    exec (stepOp d) s = .next (halfStep d s) := by
  rw [exec_eq_effect, effect_stepOp]

/-- A STEP makes a coil Active where the word at the position before it has a 1. -/
theorem halfStep_coilLevel (d : Direction) (s : State) (i : Fin 4) :
    (halfStep d s).coilLevel i = levelOfBit ((memRead s.pos).getLsbD i) := rfl

/-- Settles O27: a STEP is the half-step, whose coils are the ROM's word at the position before it,
and that word is the source's literal bit for bit; the example reads the word `0xC` of index 1. -/
theorem stepShowsThePatternOfItsPosition : Obligations.StepShowsThePatternOfItsPosition := by
  intro d s
  refine ⟨⟨_, exec_stepOp_eq_halfStep d s, halfStep_q d s⟩,
    ⟨_, exec_stepOp_eq_halfStep d s, fun i => ?_⟩, _, exec_stepOp_eq_halfStep d _, ?_⟩
  · rw [halfStep_coilLevel, sourceWord_getLsbD]
    rfl
  · simp only [halfStep_coilLevel]
    decide

end Sys2Proof.Machine
end

/-! ### Exceptions: total steps and dropped requests (60_exceptions.md) -/

section
namespace Sys2Proof.Machine

/-- Settles O8: every operation answers its effect, and every step the effect of the operation its
word selects, whether the word is presented or comes next. -/
theorem everyStepCompletes : Obligations.EveryStepCompletes := fun s =>
  ⟨fun i => ⟨_, exec_eq_effect i s⟩, ⟨_, step_eq_effect s⟩,
    fun w => ⟨_, step_present_eq_edgeWith w s⟩⟩

/-- An edge keeps of its word the selected operation only: the losing bits leave no trace (R154). -/
theorem edgeWith_eq_of_decode_eq {w v : Ctl} (h : decode w = decode v) (s : State) :
    edgeWith w s = edgeWith v s := by
  rw [edgeWith, edgeWith, h]

theorem step_present_eq_of_decode_eq {w v : Ctl} (h : decode w = decode v) (s : State) :
    step (s.present [w]) = step (s.present [v]) := by
  rw [step_present_eq_edgeWith, step_present_eq_edgeWith, edgeWith_eq_of_decode_eq h]

/-- Clearing the losing and ignored bits of every word leaves a run as it is (R154). -/
theorem afterWords_map_encode_decode (ws : List Ctl) (s : State) :
    afterWords (ws.map fun w => encode (decode w)) s = afterWords ws s := by
  induction ws generalizing s with
  | nil => rfl
  | cons w ws ih =>
    have hedge : edgeWith (encode (decode w)) s = edgeWith w s :=
      edgeWith_eq_of_decode_eq (decode_encode (decode w)) s
    rw [List.map_cons, afterWords, hedge, ih, afterWords]

/-- Settles O40: by the priority chain the words of each of the first two clauses decode to one
operation, and those of the third to HOLD; an edge sees the operation only, so a run is that of the
canonical words. -/
theorem losingRequestsAreDropped : Obligations.LosingRequestsAreDropped := by
  refine ⟨fun off stp dir s => ?_, fun stp dir s => ?_, fun dir s => ?_, fun ws s => ?_⟩
  · exact step_present_eq_of_decode_eq (decode_packCtl true off stp dir) s
  · exact step_present_eq_of_decode_eq (decode_packCtl false true stp dir) s
  · rw [step_present_eq_edgeWith, edgeWith_of_decode_hold (decode_packCtl false false false dir)]
  · rw [runWords_eq, runWords_eq, afterWords_map_encode_decode]

end Sys2Proof.Machine
end

/-! ### Reset (70_reset_and_hazards.md) -/

section
namespace Sys2Proof.Machine

/-- One or more edges with `rst` = 1 leave the reset state (R170); the last of them alone would. -/
theorem afterWords_of_rst {ws : List Ctl} (hne : ws ≠ [])
    (hrst : ∀ w ∈ ws, w.getLsbD 3 = true) (s : State) :
    afterWords ws s = { s with pos := 0, q := 0b0000, edge := s.edge + ws.length } := by
  obtain rfl | ⟨vs, w, rfl⟩ := List.eq_nil_or_concat' ws
  · exact absurd rfl hne
  · have hw : decode w = .reset := (decode_eq_reset_iff w).mpr (hrst w (by simp))
    rw [afterWords_append_of_decode_reset hw, List.length_append, List.length_singleton,
      ← Nat.add_assoc]

/-- One further word performs its operation on the state the run before it left. -/
theorem runWords_append_singleton (ws : List Ctl) (w : Ctl) (s : State) :
    runWords (ws ++ [w]) s =
      exec (decode w) { afterWords ws s with edge := (afterWords ws s).edge + 1 } :=
  calc runWords (ws ++ [w]) s
      = .next (edgeWith w (afterWords ws s)) := by rw [runWords_eq, afterWords_append]; rfl
    _ = step ((afterWords ws s).present [w]) := (step_present_eq_edgeWith w _).symm
    _ = exec (decode w) { afterWords ws s with edge := (afterWords ws s).edge + 1 } :=
      step_present_singleton w _

/-- Settles O17: the last word with `rst` = 1 clears both registers whatever the run before it did,
and the next word's operation starts from that state. -/
theorem resetHoldsWhileRstStaysOne : Obligations.ResetHoldsWhileRstStaysOne := by
  intro ws s hne hrst
  refine ⟨?_, fun off stp dir => ?_⟩
  · rw [runWords_eq, afterWords_of_rst hne hrst]
  · rw [runWords_append_singleton, afterWords_of_rst hne hrst]

end Sys2Proof.Machine
end

/-! ### The words of the ROM (20_memory.md) -/

section
namespace Sys2Proof.Machine

theorem activeCount_memRead (k : Pos) :
    activeCount (memRead k) = if k.toNat % 2 = 0 then 1 else 2 := by
  revert k; decide

theorem memRead_of_odd {k : Pos} (h : k.toNat % 2 = 1) :
    memRead k = memRead (k - 1) ||| memRead (k + 1) := by
  revert k; decide

theorem memRead_injective : Function.Injective memRead := by
  intro k k'
  revert k k'; decide

/-- Neighbours in the ROM differ in one coil, whichever way the counter goes (R43). -/
theorem activeCount_memRead_xor_nextPos (d : Direction) (k : Pos) :
    activeCount (memRead k ^^^ memRead (nextPos d k)) = 1 := by
  revert k; cases d <;> decide

theorem exists_single_bit_of_activeCount_eq_one {v : Pattern} (h : activeCount v = 1) :
    ∃ i : Fin 4, v.getLsbD i = true ∧ ∀ j : Fin 4, j ≠ i → v.getLsbD j = false := by
  revert v; decide

theorem levelOfBit_injective : Function.Injective levelOfBit := by
  intro b c; cases b <;> cases c <;> decide

/-- Latches one bit apart show one coil at two levels, and every other coil at one. -/
theorem exists_single_changed_coil {s t : State} (h : activeCount (s.q ^^^ t.q) = 1) :
    ∃ i : Fin 4, s.coilLevel i ≠ t.coilLevel i ∧
      ∀ j : Fin 4, j ≠ i → s.coilLevel j = t.coilLevel j := by
  obtain ⟨i, hi, hrest⟩ := exists_single_bit_of_activeCount_eq_one h
  simp only [BitVec.getLsbD_xor, bne_iff_ne, bne_eq_false_iff_eq] at hi hrest
  exact ⟨i, fun hl => hi (levelOfBit_injective hl), fun j hj => congrArg levelOfBit (hrest j hj)⟩

/-- Settles O25: the properties of the eight words are read off them; two STEPs in one direction load
neighbours, whose exclusive OR has one bit, so the coil at that bit alone changes. -/
theorem romWordsAlternateAndOverlap : Obligations.RomWordsAlternateAndOverlap := by
  refine ⟨fun k => ⟨activeCount_memRead k, memRead_ne_zero k, memRead_of_odd, ?_⟩,
    memRead_injective, fun d s => ⟨_, _, exec_stepOp_eq_halfStep d s,
      exec_stepOp_eq_halfStep d _, exists_single_changed_coil ?_⟩⟩
  · rw [← nextPos_clockwise]
    exact activeCount_memRead_xor_nextPos .clockwise k
  · exact activeCount_memRead_xor_nextPos d s.pos

/-- Settles O26: a STEP shows the ROM's word at the position before it, and the numbers and letters of
its Active bits are read off the eight words. -/
theorem coilNamesFollowTheExcitationOrder : Obligations.CoilNamesFollowTheExcitationOrder := by
  intro d s
  refine ⟨_, exec_stepOp_eq_halfStep d s, ?_⟩
  rw [State.coil_eq_q, halfStep_q]
  generalize s.pos = k
  revert k; decide

end Sys2Proof.Machine
end

/-! ### The latch: how it trails the position, and its nine values (10_state.md, 40_step.md) -/

section
namespace Sys2Proof.Machine

theorem eq_effect_of_step {s t : State} (h : step s = .next t) :
    t = effect (decode s.ctl) s.passEdge :=
  eq_effect_of_exec h

/-- What every operation but HOLD enters, every operation keeps: HOLD leaves the state as it is. -/
theorem effect_keeps_of_entered {P : State → Prop} {i : Instr} {s : State}
    (henter : i ≠ .hold → P (effect i s)) (h : P s) : P (effect i s) := by
  by_cases hi : i = .hold
  · subst hi; exact h
  · exact henter hi

/-! The latch trails the position (R85). -/

theorem nextPos_ne_self (d : Direction) (p : Pos) : nextPos d p ≠ p := by
  revert p; cases d <;> decide

/-- After a STEP the latch holds the word one place back against the direction of the STEP. -/
theorem halfStep_q_eq_behind (d : Direction) (s : State) :
    (halfStep d s).q = memRead (nextPos d.opposite (halfStep d s).pos) := by
  rw [halfStep_q, halfStep_pos, nextPos_opposite_nextPos]

theorem halfStep_q_ne_memRead_pos (d : Direction) (s : State) :
    (halfStep d s).q ≠ memRead (halfStep d s).pos :=
  fun h => nextPos_ne_self d s.pos (memRead_injective h).symm

theorem halfStep_clockwise_q (s : State) :
    (halfStep .clockwise s).q = memRead ((halfStep .clockwise s).pos - 1) := by
  rw [← nextPos_counterClockwise]
  exact halfStep_q_eq_behind .clockwise s

theorem halfStep_counterClockwise_q (s : State) :
    (halfStep .counterClockwise s).q = memRead ((halfStep .counterClockwise s).pos + 1) := by
  rw [← nextPos_clockwise]
  exact halfStep_q_eq_behind .counterClockwise s

/-- Settles O30: the latch holds the word at the position before the STEP, which is one place back from
the position after it; and no two words of the ROM are equal. -/
theorem latchTrailsTheCounterAfterStep : Obligations.LatchTrailsTheCounterAfterStep := fun s =>
  ⟨⟨_, exec_stepOp_eq_halfStep .clockwise s, halfStep_clockwise_q s,
      halfStep_q_ne_memRead_pos .clockwise s⟩,
    ⟨_, exec_stepOp_eq_halfStep .counterClockwise s, halfStep_counterClockwise_q s,
      halfStep_q_ne_memRead_pos .counterClockwise s⟩⟩

/-- Every operation but HOLD enters the invariant: it clears the latch, or it is a STEP. -/
theorem effect_latchTrails_of_ne_hold {i : Instr} (h : i ≠ .hold) (s : State) :
    (effect i s).latchTrails := by
  cases i with
  | reset => exact .inl (effect_reset_q s)
  | off => exact .inl (deEnergize_q s)
  | stepCw => exact .inr (.inl (halfStep_clockwise_q s))
  | stepCcw => exact .inr (.inr (halfStep_counterClockwise_q s))
  | hold => exact absurd rfl h

theorem effect_keeps_latchTrails (i : Instr) {s : State} (h : s.latchTrails) :
    (effect i s).latchTrails :=
  effect_keeps_of_entered (fun hi => effect_latchTrails_of_ne_hold hi s) h

/-- Settles O31: a step is the effect of an operation on a state with the same registers; HOLD keeps
them, and every other operation enters the invariant. -/
theorem everyStepKeepsTheLatchTrailing : Obligations.EveryStepKeepsTheLatchTrailing := by
  refine ⟨fun s t hs hstep => ?_, fun i s hi => ?_⟩
  · rw [eq_effect_of_step hstep]
    exact effect_keeps_latchTrails _ hs
  · exact ⟨_, exec_eq_effect i s, effect_latchTrails_of_ne_hold hi s⟩

/-- Settles O32: at reset the latch is clear (R35). -/
theorem resetStateHasTheLatchTrailing : Obligations.ResetStateHasTheLatchTrailing := .inl rfl

/-! The nine values of the latch (R22). -/

theorem legalPattern_memRead (k : Pos) : legalPattern (memRead k) = true := by
  revert k; decide

theorem effect_legalPattern_of_ne_hold {i : Instr} (h : i ≠ .hold) (s : State) :
    legalPattern (effect i s).q = true := by
  cases i with
  | reset => rfl
  | off => rfl
  | stepCw => exact legalPattern_memRead s.pos
  | stepCcw => exact legalPattern_memRead s.pos
  | hold => exact absurd rfl h

theorem effect_keeps_legalPattern (i : Instr) {s : State} (h : legalPattern s.q = true) :
    legalPattern (effect i s).q = true :=
  effect_keeps_of_entered (P := fun t => legalPattern t.q = true)
    (fun hi => effect_legalPattern_of_ne_hold hi s) h

theorem afterWords_keeps_legalPattern (ws : List Ctl) {s : State} (h : legalPattern s.q = true) :
    legalPattern (afterWords ws s).q = true := by
  induction ws generalizing s with
  | nil => exact h
  | cons w ws ih => exact ih (effect_keeps_legalPattern (decode w) h)

/-- One word that is not a HOLD makes the latch legal, and the words after it keep it so. -/
theorem afterWords_legalPattern {ws : List Ctl} (h : ∃ w ∈ ws, decode w ≠ .hold) (s : State) :
    legalPattern (afterWords ws s).q = true := by
  obtain ⟨w, hmem, hw⟩ := h
  obtain ⟨before, later, rfl⟩ := List.append_of_mem hmem
  rw [afterWords_append]
  exact afterWords_keeps_legalPattern later (effect_legalPattern_of_ne_hold hw _)

/-- Settles O33: the run is split at a word that is not a HOLD. -/
theorem latchLegalOnceWritten : Obligations.LatchLegalOnceWritten := fun ws s h =>
  ⟨_, runWords_eq ws s, List.contains_iff_mem.mp (afterWords_legalPattern h s)⟩

/-! Runs of the core, whatever the host presents (R150). -/

theorem run_succ_of_step {s t : State} (h : step s = .next t) (n : Nat) :
    Sys2Proof.core.run (n + 1) s = Sys2Proof.core.run n t := by
  have hcore : Sys2Proof.core.step s = .next t := h
  simp only [Host.Core.run, hcore]

theorem trace_succ_of_step {s t : State} (h : step s = .next t) (n : Nat) :
    trace (n + 1) s = t :: trace n t := by
  simp only [trace, h]

theorem exists_run_eq_next (n : Nat) (s : State) : ∃ t, Sys2Proof.core.run n s = .next t := by
  induction n generalizing s with
  | zero => exact ⟨s, rfl⟩
  | succ n ih =>
    rw [run_succ_of_step (step_eq_effect s)]
    exact ih _

/-- What every step keeps holds after each edge of a run that starts with it. -/
theorem forall_mem_trace {P : State → Prop} (hstep : ∀ s t, P s → step s = .next t → P t)
    (n : Nat) {s : State} (h : P s) : ∀ t ∈ trace n s, P t := by
  induction n generalizing s with
  | zero => intro t ht; cases ht
  | succ n ih =>
    have hnext := hstep s _ h (step_eq_effect s)
    rw [trace_succ_of_step (step_eq_effect s)]
    exact List.forall_mem_cons.mpr ⟨hnext, ih hnext⟩

theorem step_keeps_legalPattern {s t : State} (hs : legalPattern s.q = true)
    (h : step s = .next t) : legalPattern t.q = true := by
  rw [eq_effect_of_step h]
  exact effect_keeps_legalPattern _ hs

/-- Settles O34: every step completes, and every step keeps a legal latch. -/
theorem legalLatchMakesEveryRunSafe : Obligations.LegalLatchMakesEveryRunSafe := fun n s h =>
  ⟨exists_run_eq_next n s, forall_mem_trace (fun _ _ => step_keeps_legalPattern) n h⟩

/-! What the registers of later states depend on (R20, R22). -/

/-- No operation but HOLD reads the latch. -/
theorem edgeWith_writeQ_of_ne_hold {w : Ctl} (h : decode w ≠ .hold) (s : State) (v : Pattern) :
    edgeWith w (s.writeQ v) = edgeWith w s := by
  unfold edgeWith
  cases hi : decode w with
  | reset => rfl
  | off => rfl
  | stepCw => rfl
  | stepCcw => rfl
  | hold => exact absurd hi h

theorem edgeWith_writeQ_of_hold {w : Ctl} (h : decode w = .hold) (s : State) (v : Pattern) :
    edgeWith w (s.writeQ v) = (edgeWith w s).writeQ v := by
  rw [edgeWith_of_decode_hold h, edgeWith_of_decode_hold h]
  rfl

/-- HOLDs carry the old latch on; the first word that is not a HOLD loses it. -/
theorem afterWords_writeQ {ws : List Ctl} (h : ∃ w ∈ ws, decode w ≠ .hold) (s : State)
    (v : Pattern) : afterWords ws (s.writeQ v) = afterWords ws s := by
  induction ws generalizing s with
  | nil => simp at h
  | cons w ws ih =>
    rw [afterWords, afterWords]
    by_cases hw : decode w = .hold
    · rw [edgeWith_writeQ_of_hold hw]
      exact ih (by simpa [hw] using h) _
    · rw [edgeWith_writeQ_of_ne_hold hw]

/-- Settles O35: by induction on the words, up to the first that is not a HOLD. -/
theorem oldLatchIsForgotten : Obligations.OldLatchIsForgotten := fun ws s v h =>
  ⟨_, runWords_eq ws s, (runWords_eq ws _).trans (congrArg _ (afterWords_writeQ h s v))⟩

theorem edgeWith_sameBlock (w : Ctl) {s u : State} (h : s.sameBlock u) :
    (edgeWith w s).sameBlock (edgeWith w u) :=
  effect_sameBlock (decode w) h

theorem afterWords_sameBlock (ws : List Ctl) {s u : State} (h : s.sameBlock u) :
    (afterWords ws s).sameBlock (afterWords ws u) := by
  induction ws generalizing s u with
  | nil => exact h
  | cons w ws ih => exact ih (edgeWith_sameBlock w h)

theorem coilTrace_eq_of_sameBlock (ws : List Ctl) {s u : State} (h : s.sameBlock u) :
    coilTrace ws s = coilTrace ws u := by
  induction ws generalizing s u with
  | nil => rfl
  | cons w ws ih =>
    have hedge := edgeWith_sameBlock w h
    rw [coilTrace_cons, coilTrace_cons, hedge.2, ih hedge]

/-- Settles O36: each edge keeps two states equal in both registers, and the coils are one of them. -/
theorem sevenBitsDetermineTheFuture : Obligations.SevenBitsDetermineTheFuture := fun ws s u h =>
  ⟨coilTrace_eq_of_sameBlock ws h, _, _, runWords_eq ws s, runWords_eq ws u,
    afterWords_sameBlock ws h⟩

/-! What one step may change (R21, R22, R162). -/

theorem eq_step_or_reset_of_effect_moves {i : Instr} {s : State} (h : (effect i s).pos ≠ s.pos) :
    i = .stepCw ∨ i = .stepCcw ∨ i = .reset := by
  cases i with
  | reset => exact .inr (.inr rfl)
  | off => exact absurd rfl h
  | stepCw => exact .inl rfl
  | stepCcw => exact .inr (.inl rfl)
  | hold => exact absurd rfl h

theorem eq_step_of_effect_energizes {i : Instr} {s : State} (hs : s.q = 0b0000)
    (h : (effect i s).q ≠ 0b0000) : i = .stepCw ∨ i = .stepCcw := by
  cases i with
  | reset => exact absurd rfl h
  | off => exact absurd rfl h
  | stepCw => exact .inl rfl
  | stepCcw => exact .inr rfl
  | hold => exact absurd hs h

/-- Settles O10: a step is the effect of the operation its word selects, and each operation's effect
on the two registers says which of them it can change. -/
theorem onlyNamedOperationsChangeRegisters : Obligations.OnlyNamedOperationsChangeRegisters := by
  intro s t h
  rw [eq_effect_of_step h]
  simp only [State.idle_iff, State.energized_iff]
  refine ⟨fun hpos => eq_step_or_reset_of_effect_moves (s := s.passEdge) hpos,
    fun hs ht => eq_step_of_effect_energizes (s := s.passEdge) hs ht,
    fun hs ht => eq_off_or_reset_of_effect_clears (s := s.passEdge) hs ht, fun hhold => ?_⟩
  rw [hhold]
  exact ⟨rfl, rfl⟩

/-- Settles O9: the effect of an operation has the host's fields of the state before. -/
theorem operationsLeaveHostInputsAlone : Obligations.OperationsLeaveHostInputsAlone := fun i s =>
  ⟨_, exec_eq_effect i s, effect_ctlIn i s, effect_edge i s, effect_stream i s⟩

end Sys2Proof.Machine
end

/-! ### Control words and programs at the block (00_scope.md, 30_encoding.md) -/

section
namespace Sys2Proof.Machine

/-- Settles O4: by evaluating the decoder on the sixteen words of the table. -/
theorem sixteenControlWordsDecodeAsTabulated : Obligations.SixteenControlWordsDecodeAsTabulated :=
  rfl

/-! The word a step samples (R12, R13). -/

theorem step_of_ctlIn_cons {s : State} {w : Ctl} {ws : List Ctl} (h : s.ctlIn = w :: ws) :
    step s = exec (decode w) { s with ctlIn := ws, edge := s.edge + 1 } := by
  simp only [step, State.ctl, State.passEdge, h, List.tail_cons]

theorem step_of_ctlIn_nil {s : State} (h : s.ctlIn = []) :
    step s = exec (decode (Config.hostCtl s.stream s.edge)) { s with edge := s.edge + 1 } := by
  simp only [step, State.ctl, State.passEdge, h, List.tail_nil]

/-- A number of four bits is placed as it is. -/
theorem withFetchWord_four {w : Nat} (h : w < 16) (s : State) :
    s.withFetchWord 4 w = s.present [BitVec.ofNat 4 w] := by
  have hmod : w % 2 ^ 4 = w := Nat.mod_eq_of_lt h
  rw [State.withFetchWord, hmod]

/-- Settles O7: one lemma for each form of the input, and a placed word is a presented one. -/
theorem stepRunsTheSampledOperation : Obligations.StepRunsTheSampledOperation := by
  refine fun s => ⟨fun _ _ => step_of_ctlIn_cons, step_of_ctlIn_nil, fun w hw => ?_⟩
  rw [withFetchWord_four hw, step_present_singleton]

/-! Programs (R68, R69). -/

/-- The state a list of operations leaves. -/
def afterOps : List Instr → State → State
  | [], s => s
  | i :: is, s => afterOps is (effect i s)

theorem runOps_eq (is : List Instr) (s : State) : runOps is s = .next (afterOps is s) := by
  induction is generalizing s with
  | nil => rfl
  | cons i is ih =>
    rw [runOps, exec_eq_effect]
    exact ih _

@[simp] theorem afterOps_edge (is : List Instr) (s : State) : (afterOps is s).edge = s.edge := by
  induction is generalizing s with
  | nil => rfl
  | cons i is ih => simp [afterOps, ih]

/-- No operation reads the index of the edge. -/
theorem effect_with_edge (i : Instr) (s : State) (n : Nat) :
    effect i { s with edge := n } = { effect i s with edge := n } := by
  cases i <;> rfl

theorem afterOps_with_edge (is : List Instr) (s : State) (n : Nat) :
    afterOps is { s with edge := n } = { afterOps is s with edge := n } := by
  induction is generalizing s with
  | nil => rfl
  | cons i is ih => rw [afterOps, effect_with_edge, ih, afterOps]

/-- The canonical words of operations do the operations in order, one an edge. -/
theorem afterWords_map_encode (is : List Instr) (s : State) :
    afterWords (is.map encode) s = { afterOps is s with edge := s.edge + is.length } := by
  induction is generalizing s with
  | nil => rfl
  | cons i is ih =>
    have hedge : edgeWith (encode i) s = { effect i s with edge := s.edge + 1 } := by
      rw [edgeWith, decode_encode]
    rw [List.map_cons, afterWords, ih, hedge, afterOps_with_edge, afterOps, List.length_cons,
      Nat.add_right_comm, Nat.add_assoc]

theorem map_decode_map_encode (is : List Instr) : (is.map encode).map decode = is := by
  simp [Function.comp_def]

theorem isCanonical_encode (i : Instr) : isCanonical (encode i) = true := by
  rw [isCanonical, decode_encode, beq_self_eq_true]

/-- Settles O6: a program's words are those of its operations, whatever the program; each is canonical
and decodes to its operation, and a run over them is, by induction on the operations, the operations
one an edge. -/
theorem assembledProgramsRunAsTheirOperations :
    Obligations.AssembledProgramsRunAsTheirOperations := by
  intro p s
  refine ⟨map_decode_map_encode p.expand, fun w hw => ?_, _, runOps_eq p.expand s, ?_⟩
  · obtain ⟨i, -, rfl⟩ := List.mem_map.mp hw
    exact isCanonical_encode i
  · rw [runWords_eq, Program.assemble, afterWords_map_encode, afterOps_edge]

end Sys2Proof.Machine
end

/-! ### Several blocks, and the platform's pins (60_exceptions.md, 20_memory.md) -/

section
namespace Sys2Proof.Machine

/-- Settles O55: the edge writes the block's own next state at its place and no other place; that state
is the step of the block driven by its own host, taken by the form of its input. -/
theorem blocksShareNoState : Obligations.BlocksShareNoState := by
  intro b i
  have hstep := step_eq_effect (b[i].drivenBy i)
  refine ⟨_, _, stepAt_eq_set b i, hstep, List.length_set, List.getElem?_set_self i.isLt,
    fun j hj => List.getElem?_set_ne hj.symm, fun w ws h => ?_, fun h => ?_⟩
  · exact (step_of_ctlIn_cons (s := b[i].drivenBy i) h).symm.trans hstep
  · exact (step_of_ctlIn_nil (s := b[i].drivenBy i) h).symm.trans hstep

theorem platformDrive_of_idle (p : Platform) {s : State} (h : s.q = 0b0000) :
    platformDrive p s = p.pins.toList.map fun n => (n, !p.activeHigh) := by
  simp only [platformDrive, State.coilLevel_of_idle h, platformLevel]
  exact List.ext_getElem (by simp) (by simp)

/-- Settles O29: after an OFF every coil is Inactive, so every pin is at that level's voltage. -/
theorem offDrivesEveryPinInactive : Obligations.OffDrivesEveryPinInactive := fun p s =>
  ⟨_, exec_eq_effect .off s, platformDrive_of_idle p rfl⟩

end Sys2Proof.Machine
end

/-! ### The position under many STEPs (40_step.md) -/

section
namespace Sys2Proof.Machine

theorem posAfter_add (d : Direction) (m n : Nat) (p : Pos) :
    posAfter d (m + n) p = posAfter d n (posAfter d m p) := by
  induction m generalizing p with
  | zero => rw [Nat.zero_add, posAfter]
  | succ m ih => rw [Nat.succ_add, posAfter, ih, posAfter]

/-- Whole turns of the counter return it to its place (R82). -/
theorem posAfter_of_eight_dvd (d : Direction) {n : Nat} (h : 8 ∣ n) (p : Pos) :
    posAfter d n p = p := by
  obtain ⟨m, rfl⟩ := h
  induction m with
  | zero => rfl
  | succ m ih => rw [Nat.mul_succ, posAfter_add, ih, posAfter_eight]

/-- The rest of a turn in the one direction is a way in the other. -/
theorem posAfter_opposite_eq {n : Nat} (h : n ≤ 8) (d : Direction) (p : Pos) :
    posAfter d.opposite (8 - n) p = posAfter d n p :=
  calc posAfter d.opposite (8 - n) p
      = posAfter d.opposite (8 - n) (posAfter d (8 - n) (posAfter d n p)) := by
        rw [← posAfter_add, Nat.add_sub_cancel' h, posAfter_eight]
    _ = posAfter d n p := posAfter_opposite_posAfter d (8 - n) _

/-- Of the two ways round the cycle one has at most four half-steps. -/
theorem exists_posAfter_eq_within_four (p p' : Pos) :
    ∃ (d : Direction) (n : Nat), n ≤ 4 ∧ posAfter d n p = p' := by
  obtain ⟨n, hn, rfl⟩ := exists_posAfter_eq .clockwise p p'
  by_cases hshort : n ≤ 4
  · exact ⟨.clockwise, n, hshort, rfl⟩
  · exact ⟨.counterClockwise, 8 - n, by omega, posAfter_opposite_eq hn.le .clockwise p⟩

/-- Settles O23: the shorter way round the cycle. -/
theorem everyPositionReachableInFourSteps : Obligations.EveryPositionReachableInFourSteps := by
  intro s p
  obtain ⟨d, n, hn, hp⟩ := exists_posAfter_eq_within_four s.pos p
  exact ⟨d, n, hn, _, runWords_eq _ s, (afterWords_replicate_stepOp_pos d n s).trans hp⟩

/-- Settles O20: without a RESET the position is that of the Clockwise STEPs and then the others, and
each direction is arithmetic modulo 8. -/
theorem positionCountsNetSteps : Obligations.PositionCountsNetSteps := by
  intro ws s h
  refine ⟨_, runWords_eq ws s, ?_⟩
  rw [afterWords_pos_of_no_reset h, posAfter_counterClockwise_toNat, posAfter_clockwise_toNat,
    Int.emod_sub_emod]

/-! The latch after STEPs in one direction, and after a change of direction (R176). -/

/-- The last of `n + 1` STEPs applies the word `n` places on. -/
theorem afterWords_replicate_stepOp_q (d : Direction) (n : Nat) (s : State) :
    (afterWords (List.replicate (n + 1) (encode (stepOp d))) s).q = memRead (posAfter d n s.pos) := by
  rw [List.replicate_succ', afterWords_append, ← afterWords_replicate_stepOp_pos]
  simp [afterWords]

/-- Settles O42: `n + 1` STEPs leave the position one place beyond the word they applied last, which is
where the first STEP back reads; and the last STEP back reads one place before it is home. -/
theorem reversalRepeatsOneStepLate : Obligations.ReversalRepeatsOneStepLate := by
  intro d n s
  have hpos := afterWords_replicate_stepOp_pos d (n + 1) s
  refine ⟨⟨_, _, _, runWords_eq _ s, exec_stepOp_eq_halfStep d.opposite _,
    exec_stepOp_eq_halfStep d.opposite _, afterWords_replicate_stepOp_q d n s, hpos, ?_, ?_⟩,
    _, runWords_eq _ s, ?_, ?_⟩
  · rw [halfStep_q, hpos]
  · rw [halfStep_q, halfStep_pos, hpos, posAfter_succ, nextPos_opposite_nextPos]
  · rw [afterWords_append, afterWords_replicate_stepOp_pos, hpos, posAfter_opposite_posAfter]
  · rw [afterWords_append, afterWords_replicate_stepOp_q, hpos, posAfter,
      posAfter_opposite_posAfter]

/-! The patterns of STEPs without gaps, on the way out and on the way back (R132). -/

theorem coilTrace_replicate_stepOp (d : Direction) (n : Nat) (s : State) :
    coilTrace (List.replicate n (encode (stepOp d))) s =
      (List.range n).map fun k => memRead (posAfter d k s.pos) := by
  induction n generalizing s with
  | zero => rfl
  | succ n ih =>
    rw [List.replicate_succ, coilTrace_cons, ih, List.range_succ_eq_map]
    simp [posAfter, Function.comp_def]

/-- On the way back each pattern is applied one place further on than on the way out. -/
theorem coilTrace_replicate_stepOp_opposite (d : Direction) (n : Nat) {s : State} {p : Pos}
    (h : s.pos = posAfter d n p) :
    coilTrace (List.replicate n (encode (stepOp d.opposite))) s =
      ((List.range n).map fun k => memRead (nextPos d (posAfter d k p))).reverse := by
  induction n generalizing s with
  | zero => rfl
  | succ n ih =>
    have hnext : (edgeWith (encode (stepOp d.opposite)) s).pos = posAfter d n p := by
      rw [edgeWith_pos, decode_encode, effect_stepOp, halfStep_pos, h, posAfter_succ,
        nextPos_opposite_nextPos]
    rw [List.replicate_succ, coilTrace_cons, ih hnext, List.range_succ]
    simp [h, posAfter_succ]

/-- Settles O47: the way back starts where the way out ended, so its patterns are, last first, those
one place on; and neighbours in the ROM differ. -/
theorem roundTripPatternsShiftByOne : Obligations.RoundTripPatternsShiftByOne := by
  refine ⟨fun n s => ?_, fun p h => ?_⟩
  · have hout := coilTrace_replicate_stepOp .clockwise n s
    have hback := coilTrace_replicate_stepOp_opposite .clockwise n
      (afterWords_replicate_stepOp_pos .clockwise n s)
    simp only [nextPos_clockwise, posAfter_clockwise] at hout hback
    exact (coilTrace_append _ _ s).trans (congrArg₂ (· ++ ·) hout hback)
  · rw [← nextPos_clockwise] at h
    exact nextPos_ne_self .clockwise p (memRead_injective h).symm

end Sys2Proof.Machine
end

/-! ### OFF, HOLD and the coils (41_idle_ops.md, 70_reset_and_hazards.md) -/

section
namespace Sys2Proof.Machine

/-- HOLDs after a word keep the registers its edge left. -/
theorem afterWords_cons_holds (w : Ctl) (n : Nat) (s : State) :
    afterWords (w :: List.replicate n 0b0000) s =
      { edgeWith w s with edge := s.edge + 1 + n } := by
  rw [afterWords, afterWords_of_decode_hold fun _ hw => decode_of_mem_replicate_zero hw,
    List.length_replicate, edgeWith_edge]

/-- A STEP after an OFF does what it would have done without it: the OFF keeps the position. -/
theorem afterWords_off_stepOp (d : Direction) (s : State) :
    afterWords [0b0100, encode (stepOp d)] s =
      { s with q := memRead s.pos, pos := nextPos d s.pos, edge := s.edge + 1 + 1 } := by
  cases d <;> rfl

/-- Settles O37: the OFF clears the latch and the HOLDs pass their edges only; a second OFF finds
nothing to clear; a STEP reads the position, which the OFF kept. -/
theorem offIsIdempotentAndLasts : Obligations.OffIsIdempotentAndLasts := by
  intro n d s
  refine ⟨?_, ⟨_, _, runWords_eq _ s, runWords_eq _ s, rfl, rfl⟩, _, runWords_eq _ s, ?_⟩
  · rw [runWords_eq, afterWords_cons_holds, edgeWith_of_decode_off rfl, Nat.add_right_comm]
  · rw [afterWords_off_stepOp]
    exact ⟨rfl, rfl⟩

/-- Settles O39: the HOLDs keep the word the STEP loaded, which has one Active coil or two by the
parity of its index. -/
theorem steppedCoilsStayEnergized : Obligations.SteppedCoilsStayEnergized := by
  intro d n s
  have hcoil : (afterWords (encode (stepOp d) :: List.replicate n 0b0000) s).coil =
      memRead s.pos := by
    rw [afterWords_cons_holds, State.coil_eq_q]
    simp
  refine ⟨_, runWords_eq _ s, hcoil, ?_⟩
  rw [hcoil, activeCount_memRead]
  split <;> decide

/-- Settles O41: the OFF keeps the position, and the STEP loads the word at it, whose Active coils are
counted by the parity of the index. -/
theorem stepAfterOffSwitchesCoilsOn : Obligations.StepAfterOffSwitchesCoilsOn := by
  intro d s
  refine ⟨_, _, exec_eq_effect .off s, State.coilLevel_of_idle rfl, exec_stepOp_eq_halfStep d _,
    rfl, ?_⟩
  rw [State.coil_eq_q, halfStep_q]
  exact (activeCount_memRead s.pos).trans (by split <;> split <;> omega)

end Sys2Proof.Machine
end

/-! ### The host's ROTATE: its end, its coils and its delays (42_rotate_sequence.md) -/

section
namespace Sys2Proof.Machine

/-- Settles O44: a ROTATE ends as many places on as it has gaps, with the latch cleared by its OFF;
places in either direction are arithmetic modulo 8. -/
theorem rotateEndState : Obligations.RotateEndState := by
  intro d gaps s
  refine ⟨⟨_, runWords_eq _ s, afterWords_rotateWords_q d gaps s, ?_⟩, rfl, fun h => ?_⟩
  · rw [afterWords_rotateWords_pos]
    cases d
    case clockwise => exact posAfter_clockwise_toNat gaps.length s.pos
    case counterClockwise => exact posAfter_counterClockwise_toNat gaps.length s.pos
  · refine ⟨_, runWords_eq _ s, ?_⟩
    rw [afterWords_rotateWords_pos, posAfter_of_eight_dvd d h]

/-- Settles O45: the `k`-th iteration shows the word `k` places from the start, and the OFF closes. -/
theorem rotateCoilTrace : Obligations.RotateCoilTrace := by
  intro d gaps s
  rw [coilTrace_rotateWords, coilTrace_rotateLoop]
  cases d
  case clockwise => simp only [posAfter_clockwise]
  case counterClockwise => simp only [posAfter_counterClockwise]

/-- The coils during the loop depend on the position it starts from, and not on the old latch. -/
theorem coilTrace_rotateLoop_eq_of_pos_eq (d : Direction) (gaps : List Nat) {s u : State}
    (h : s.pos = u.pos) : coilTrace (rotateLoop d gaps) s = coilTrace (rotateLoop d gaps) u := by
  rw [coilTrace_rotateLoop, coilTrace_rotateLoop, h]

/-- Settles O46: the first loop leaves the same position with the OFF after it and without, so the
second loop shows the same words; and places in one direction add up. -/
theorem rotationsComposeThroughThePosition : Obligations.RotationsComposeThroughThePosition := by
  intro d g₁ g₂ s
  have hpos : (afterWords (rotateWords d g₁) s).pos = (afterWords (rotateLoop d g₁) s).pos := by
    rw [afterWords_rotateWords_pos, afterWords_rotateLoop_pos]
  refine ⟨⟨_, coilTrace (rotateLoop d g₂) (afterWords (rotateLoop d g₁) s), rfl, ?_, ?_⟩,
    _, _, runWords_eq _ s, runWords_eq _ s, ?_, ?_⟩
  · rw [coilTrace_rotateWords, rotateLoop_append, coilTrace_append]
  · rw [coilTrace_append, coilTrace_rotateWords, coilTrace_rotateWords,
      coilTrace_rotateLoop_eq_of_pos_eq d g₂ hpos, List.append_assoc _ _ [0b0000]]
  · rw [afterWords_append, afterWords_rotateWords_pos, afterWords_rotateWords_pos,
      afterWords_rotateWords_pos, List.length_append, posAfter_add]
  · rw [afterWords_append, afterWords_rotateWords_q, afterWords_rotateWords_q]

/-! The delays of the source's loop, and the gaps that carry them (R120, R123, R135). -/

theorem delayCalls_rotateEvents (t : Timing) (d : Direction) (n : Nat) :
    delayCalls (rotateEvents t d n) = List.replicate n (appliedDelayMs t) := by
  induction n with
  | zero => rfl
  | succ n ih => rw [rotateEvents, delayCalls, delayCalls, ih, List.replicate_succ]

theorem eventWords_rotateEvents (t : Timing) (d : Direction) (n : Nat) :
    eventWords t (rotateEvents t d n) =
      rotateWords d (List.replicate n (gapFor t (appliedDelayMs t))) := by
  induction n with
  | zero => rfl
  | succ n ih =>
    rw [rotateEvents, eventWords, eventWords, ih]
    simp [rotateWords, rotateLoop, List.replicate_succ]

/-- Settles O51: one delay and its gap an iteration, by induction on their number; and the end of a
ROTATE depends on the number of its gaps only. -/
theorem rotateDelaysOncePerHalfStep : Obligations.RotateDelaysOncePerHalfStep := fun t d n =>
  ⟨delayCalls_rotateEvents t d n, eventWords_rotateEvents t d n, fun _ _ s h =>
    ⟨_, _, runWords_eq _ s, runWords_eq _ s, afterWords_rotateWords_sameBlock d h s⟩⟩

/-- The gap is the quotient rounded up, so it is at most `g` exactly when `g` edges last the delay. -/
theorem gapFor_le_iff {t : Timing} (h : 0 < t.tClk) (ms g : Nat) :
    gapFor t ms ≤ g ↔ ms * t.ticksPerMs ≤ g * t.tClk := by
  rw [gapFor, ← Nat.add_sub_assoc h, ← Nat.ceilDiv_eq_add_pred_div, ceilDiv_le_iff_le_mul h,
    Nat.mul_comm t.tClk]

/-- A call with as many gaps as STEPs, each the one taken for the applied delay, is well formed. -/
theorem rotateCall_wf_of_gapFor {t : Timing} (h : 0 < t.tClk) (d : Direction) (n : Nat) :
    RotateCall.wf t ⟨d, n, List.replicate n (gapFor t (appliedDelayMs t))⟩ = true := by
  have hgap : t.speed / t.ticksPerMs * t.ticksPerMs ≤ gapFor t (appliedDelayMs t) * t.tClk :=
    (gapFor_le_iff h (appliedDelayMs t) _).mp le_rfl
  simp [RotateCall.wf, hgap]

/-- Settles O52: lasting the delay and being at least the gap are one condition. -/
theorem gapIsTheLeastThatCoversTheDelay : Obligations.GapIsTheLeastThatCoversTheDelay :=
  fun _ ms h => ⟨(gapFor_le_iff h ms _).mp le_rfl, fun g => (gapFor_le_iff h ms g).mpr,
    rotateCall_wf_of_gapFor h⟩

end Sys2Proof.Machine
end

/-! ### The source's software and the block (91_not_in_source.md N6) -/

section
namespace Sys2Proof.Machine

/-! Pin writes in any order (R80, R100). -/

@[simp] theorem Software.write_position (m : Software) (i : Fin 4) (l : Level) :
    (m.write i l).position = m.position := rfl

theorem Software.write_pins (m : Software) (i j : Fin 4) (l : Level) :
    (m.write i l).pins[j] = if i = j then l else m.pins[j] := by
  simp [Software.write, Vector.getElem_set, Fin.ext_iff]

/-- The levels `f` written to the coils of `order`, one after another. -/
def Software.writeAll (f : Fin 4 → Level) (order : List (Fin 4)) (m : Software) : Software :=
  order.foldl (fun m i => m.write i (f i)) m

@[simp] theorem Software.writeAll_position (f : Fin 4 → Level) (order : List (Fin 4))
    (m : Software) : (m.writeAll f order).position = m.position := by
  induction order generalizing m with
  | nil => rfl
  | cons i order ih => exact ih _

/-- A written coil has its level whatever the order, and however often it is written. -/
theorem Software.writeAll_pins {f : Fin 4 → Level} {order : List (Fin 4)} {j : Fin 4}
    {m : Software} (h : j ∈ order ∨ m.pins[j] = f j) : (m.writeAll f order).pins[j] = f j := by
  induction order generalizing m with
  | nil => simpa [Software.writeAll] using h
  | cons i order ih =>
    refine ih (m := m.write i (f i)) ?_
    rw [Software.write_pins]
    by_cases hij : i = j
    · exact .inr (by rw [if_pos hij, hij])
    · simpa [hij, Ne.symm hij] using h

theorem mem_of_perm_coils {order : List (Fin 4)} (h : order.Perm [0, 1, 2, 3]) (j : Fin 4) :
    j ∈ order :=
  h.mem_iff.mpr (by revert j; decide)

theorem Software.deEnergize_eq_writeAll (order : List (Fin 4)) (m : Software) :
    m.deEnergize order = m.writeAll (fun _ => .inactive) order := rfl

/-- No pin write moves the position, so every write reads its level from one word of the table. -/
theorem Software.applyPattern_eq_writeAll (order : List (Fin 4)) {m : Software} {p : Pos}
    (h : m.position = p.toFin) :
    m.applyPattern order = m.writeAll (fun i => levelOfBit ((memRead p).getLsbD i)) order := by
  induction order generalizing m with
  | nil => rfl
  | cons i order ih =>
    have hlevel : (if (sourceWord m.position).getLsbD i then Level.active else .inactive) =
        levelOfBit ((memRead p).getLsbD i) := by
      rw [h, sourceWord_getLsbD, levelOfBit]
    rw [Software.applyPattern, List.foldl_cons, hlevel]
    exact ih h

/-! One iteration of the loop (R80, R81). -/

@[simp] theorem Software.advance_pins (d : Direction) (m : Software) :
    (m.advance d).pins = m.pins := by
  cases d <;> rfl

theorem Software.advance_position (d : Direction) {m : Software} {p : Pos}
    (h : m.position = p.toFin) : (m.advance d).position = (nextPos d p).toFin := by
  obtain ⟨k, pins⟩ := m
  obtain rfl : k = p.toFin := h
  cases d
  case clockwise =>
    change (if p.toFin.val + 1 > 7 then 0 else p.toFin + 1) = (nextPos .clockwise p).toFin
    revert p; decide
  case counterClockwise =>
    change (if (p.toFin.val : Int) - 1 < 0 then 7 else p.toFin - 1) =
      (nextPos .counterClockwise p).toFin
    revert p; decide

theorem Software.halfStep_position (d : Direction) (order : List (Fin 4)) {m : Software} {p : Pos}
    (h : m.position = p.toFin) : (m.halfStep d order).position = (nextPos d p).toFin := by
  apply Software.advance_position
  rw [Software.applyPattern_eq_writeAll order h, Software.writeAll_position, h]

/-- An iteration leaves the levels of the word at the position before it. -/
theorem Software.halfStep_pins (d : Direction) {order : List (Fin 4)} {m : Software} {p : Pos}
    (horder : order.Perm [0, 1, 2, 3]) (h : m.position = p.toFin) (i : Fin 4) :
    (m.halfStep d order).pins[i] = levelOfBit ((memRead p).getLsbD i) := by
  simp only [Software.halfStep, Software.advance_pins, Software.applyPattern_eq_writeAll order h]
  exact Software.writeAll_pins (.inl (mem_of_perm_coils horder i))

/-- Settles O54: both read the word at the position before, write its four levels, and move the
position by one. -/
theorem stepIsOneSoftwareIteration : Obligations.StepIsOneSoftwareIteration := by
  intro d order s m horder h
  refine ⟨_, exec_stepOp_eq_halfStep d s, Software.halfStep_position d order h, fun i => ?_⟩
  rw [halfStep_coilLevel, Software.halfStep_pins d horder h]

/-! The whole loop, and the de-energize after it (R120). -/

theorem Software.foldl_halfStep_position (d : Direction) (orders : List (List (Fin 4)))
    {m : Software} {p : Pos} (h : m.position = p.toFin) :
    (orders.foldl (fun m o => m.halfStep d o) m).position =
      (posAfter d orders.length p).toFin := by
  induction orders generalizing m p with
  | nil => exact h
  | cons o orders ih => exact ih (Software.halfStep_position d o h)

theorem Software.rotate_position (d : Direction) (orders : List (List (Fin 4)))
    (offOrder : List (Fin 4)) {m : Software} {p : Pos} (h : m.position = p.toFin) :
    (m.rotate d orders offOrder).position = (posAfter d orders.length p).toFin := by
  rw [Software.rotate, Software.deEnergize_eq_writeAll, Software.writeAll_position,
    Software.foldl_halfStep_position d orders h]

theorem Software.rotate_pins (d : Direction) (orders : List (List (Fin 4)))
    {offOrder : List (Fin 4)} (hoff : offOrder.Perm [0, 1, 2, 3]) (m : Software) (i : Fin 4) :
    (m.rotate d orders offOrder).pins[i] = .inactive :=
  Software.writeAll_pins (f := fun _ => .inactive) (.inl (mem_of_perm_coils hoff i))

/-- Settles O53: the loop and the block move by one place for each iteration, and both end with all
four coils Inactive. -/
theorem blockRefinesTheSoftwareRotate : Obligations.BlockRefinesTheSoftwareRotate := by
  intro d orders offOrder gaps s m _ hoff hlen h
  refine ⟨_, runWords_eq _ s, ?_, fun i => ?_⟩
  · rw [afterWords_rotateWords_pos, hlen, Software.rotate_position d orders offOrder h]
  · rw [Software.rotate_pins d orders hoff,
      State.coilLevel_of_idle (afterWords_rotateWords_q d gaps s)]

end Sys2Proof.Machine
end
